-- ==== Sys2Proof/Word.lean ====
section
/-! DEFINITION. The word types of the bridge: a level, the 8-bit counts and the words of the three formats. -/

namespace Sys2Proof

/-- A level on a line or in a one-bit register (00_scope.md section 5). -/
inductive Level where
  | low
  | high
deriving DecidableEq, Repr

/-- `not LOW = HIGH`, `not HIGH = LOW` (00_scope.md section 5). -/
def Level.not : Level → Level
  | .low => .high
  | .high => .low

/-- A level as a bit: `LOW = 0`, `HIGH = 1` (R45). -/
def Level.bit : Level → Bool
  | .low => false
  | .high => true

/-- The level a bit stands for (R45). -/
def Level.ofBit (b : Bool) : Level := if b then .high else .low

/-- The value of `exp` and of `pcnt`: 8 bits, unsigned, `+ 1` modulo 256 (R13, R14, R76). -/
abbrev Count := BitVec 8

/-- An edge word, format E (R47). -/
abbrev EdgeWord := BitVec 2

/-- A dispatch word, format D (R48). -/
abbrev DispatchWord := BitVec 5

/-- A micro-operation word, format U (R51). -/
abbrev MicroWord := BitVec 8

end Sys2Proof
end

