-- ==== Sys2Proof/Syntax.lean ====
section
/-! DEFINITION. The names of the block (phases, lines, edge classes, actions) and its instructions: one constructor for each of
the twenty rows of spec/opcode_table.json. -/

namespace Sys2Proof

/-- `phase` (R15). `reserved` is the fourth code `0b11`, which no operation writes and a model refuses (R46). -/
inductive Phase where
  | idle
  | active
  | draining
  | reserved
deriving DecidableEq, Repr

/-- The two input lines (R31, ids 0 and 1). -/
inductive InLine where
  | framing
  | preq
deriving DecidableEq, Repr

/-- The four output lines (R31, ids 2 to 5), in the order of their output-mask bits 0 to 3 (R54). -/
inductive OutLine where
  | sioClk
  | spiClk
  | sync
  | flow
deriving DecidableEq, Repr

/-- The ids of the lines (R31). -/
def InLine.id : InLine → Nat
  | .framing => 0
  | .preq => 1

/-- The ids of the lines (R31). -/
def OutLine.id : OutLine → Nat
  | .sioClk => 2
  | .spiClk => 3
  | .sync => 4
  | .flow => 5

/-- Every output line, in mask order (R54). -/
def OutLine.all : List OutLine := [.sioClk, .spiClk, .sync, .flow]

/-- A set of output lines, the operand of `TGL` and `SET` (R52 b, R55). -/
structure LineSet where
  sioClk : Bool := false
  spiClk : Bool := false
  sync   : Bool := false
  flow   : Bool := false
deriving DecidableEq, Repr

/-- Whether a line is in the set. -/
def LineSet.has (lines : LineSet) : OutLine → Bool
  | .sioClk => lines.sioClk
  | .spiClk => lines.spiClk
  | .sync => lines.sync
  | .flow => lines.flow

/-- Whether the set names at least one line; `TGL` and `SET` take a non-empty set (R95, R96). -/
def LineSet.nonEmpty (lines : LineSet) : Bool :=
  lines.sioClk || lines.spiClk || lines.sync || lines.flow

/-- The class of a transition of the framing line (R61). -/
inductive EdgeClass where
  | falling
  | rising
  | noEdge
deriving DecidableEq, Repr

/-- What one polling iteration does (00_scope.md section 6). -/
inductive Action where
  | nop
  | start
  | byte
  | endAction
deriving DecidableEq, Repr

/-- The instructions: the rows of spec/opcode_table.json in its order. A field is a bit of the word that takes no part in
selecting the row. -/
inductive Instr where
  /-- START, format D: Idle and FallingEdge; words `0x04`, `0x05` (R49, R82, R102). -/
  | start (pend : Bool)
  /-- BYTE, format D: Active and a pending pulse; words `0x09`, `0x0B`, `0x0D`, `0x0F` (R49, R83, R104). -/
  | byte (prev cur : Level)
  /-- END, format D: Active, RisingEdge, nothing pending; word `0x0A` (R49, R84, R106). -/
  | endAction
  /-- NOP, format D: Idle with `prev = LOW`; words `0x00` to `0x03` (R49, R85). -/
  | nopIdleLow (cur : Level) (pend : Bool)
  /-- NOP, format D: Idle with `prev = cur = HIGH`; words `0x06`, `0x07` (R49, R85). -/
  | nopIdleHigh (pend : Bool)
  /-- NOP, format D: Active with `prev = cur = LOW`, nothing pending; word `0x08` (R49, R85). -/
  | nopActiveLow
  /-- NOP, format D: Active with `prev = HIGH`, nothing pending; words `0x0C`, `0x0E` (R49, R85). -/
  | nopActiveHigh (cur : Level)
  /-- RESERVED, format D: `d[4] = 1`; words `0x10` to `0x1F`; `upper` is `d[3]` (R50). -/
  | reserved (upper : Bool) (prev cur : Level) (pend : Bool)
  /-- EDGE.FALL, format E: `prev = HIGH`, `cur = LOW` (R62). -/
  | edgeFall
  /-- EDGE.RISE, format E: `prev = LOW`, `cur = HIGH` (R63). -/
  | edgeRise
  /-- EDGE.NONE, format E: `prev = cur = LOW` (R64). -/
  | edgeNoneLow
  /-- EDGE.NONE, format E: `prev = cur = HIGH` (R64). -/
  | edgeNoneHigh
  /-- TGL, format U: toggle every line of the set (R95). -/
  | tgl (lines : LineSet)
  /-- SET, format U: drive every line of the set to a level (R96). -/
  | set (level : Level) (lines : LineSet)
  /-- DLY, format U: block for `n` half-units (R97). -/
  | dly (n : Nat)
  /-- RSTEXP, format U (R74). -/
  | rstexp
  /-- RSTCNT, format U (R71). -/
  | rstcnt
  /-- INCEXP, format U (R73). -/
  | incexp
  /-- LATCHPREV, format U (R65). -/
  | latchprev
  /-- SETPHASE, format U (R98). -/
  | setphase (p : Phase)
deriving DecidableEq, Repr

/-- A word of one of the three formats, each of one fixed length (R58): the edge word, the dispatch word, the
micro-operation word. Which format a word has is not in its bits but in the place that decodes it (30_encoding.md). -/
inductive TableWord where
  | edge (e : EdgeWord)
  | dispatch (d : DispatchWord)
  | micro (u : MicroWord)
deriving DecidableEq, Repr

end Sys2Proof
end

