-- ==== Sys2Proof/WellFormed.lean ====
section
/-! DEFINITION. Which instruction terms have an encoding: the operand limits of R51 and R53. -/

namespace Sys2Proof

/-- The operand limits of R51: a non-empty set for `TGL` and `SET`, `n` in `1..31` for `DLY`, a phase that is not the reserved
code for `SETPHASE`. Every other operand has only legal values. -/
def Instr.wf : Instr → Bool
  | .start _ => true
  | .byte _ _ => true
  | .endAction => true
  | .nopIdleLow _ _ => true
  | .nopIdleHigh _ => true
  | .nopActiveLow => true
  | .nopActiveHigh _ => true
  | .reserved _ _ _ _ => true
  | .edgeFall => true
  | .edgeRise => true
  | .edgeNoneLow => true
  | .edgeNoneHigh => true
  | .tgl lines => lines.nonEmpty
  | .set _ lines => lines.nonEmpty
  | .dly n => decide (1 ≤ n) && decide (n ≤ 31)
  | .rstexp => true
  | .rstcnt => true
  | .incexp => true
  | .latchprev => true
  | .setphase p => decide (p ≠ .reserved)

end Sys2Proof
end

