-- ==== Sys2Proof/Decode.lean ====
section
/-! DEFINITION. The decoders of the three formats (R47, R49, R51, R53), total on every word, and after them the encoder written
from the same tables; at the end the reading of a word as spec/opcode_table.json numbers its bits. -/

namespace Sys2Proof

/-- Why a word is refused: the reserved micro-operation words of R53, each by name. Every edge word is defined (R47), and the
reserved dispatch words are the row RESERVED of the table (R49). -/
inductive DecodeError where
  /-- `TGL` or `SET` with mask 0. -/
  | emptyLineSet
  /-- `TGL` with `a[4] = 1`. -/
  | toggleLevelBit
  /-- `DLY 0`. -/
  | zeroDelay
  /-- `RSTEXP`, `RSTCNT`, `INCEXP` or `LATCHPREV` with `a` not 0. -/
  | strayOperand
  /-- `SETPHASE` with `a[4:2]` not 0. -/
  | strayPhaseBits
  /-- `SETPHASE` with `p = 0b11`. -/
  | reservedPhase
deriving DecidableEq, Repr

/-! ### Value encodings -/

/-- The code of a phase (R46). -/
def Phase.code : Phase → BitVec 2
  | .idle => 0b00#2
  | .active => 0b01#2
  | .draining => 0b10#2
  | .reserved => 0b11#2

/-- The phase a code stands for (R46). -/
def Phase.ofCode (c : BitVec 2) : Phase :=
  match c.toNat with
  | 0 => .idle
  | 1 => .active
  | 2 => .draining
  | _ => .reserved

/-- The output mask of a set: bit 0 `SIO_CLK`, bit 1 `SPI_CLK`, bit 2 `SYNC`, bit 3 `FLOW` (R54). -/
def LineSet.mask (lines : LineSet) : BitVec 4 :=
  BitVec.ofBool lines.flow ++ BitVec.ofBool lines.sync ++ BitVec.ofBool lines.spiClk ++ BitVec.ofBool lines.sioClk

/-- The set an output mask stands for (R54). -/
def LineSet.ofMask (m : BitVec 4) : LineSet :=
  { sioClk := m.getLsbD 0, spiClk := m.getLsbD 1, sync := m.getLsbD 2, flow := m.getLsbD 3 }

/-- The edge word `e[1:0] = {prev, cur}` (R47). -/
def edgeWordOf (prev cur : Level) : EdgeWord :=
  BitVec.ofBool prev.bit ++ BitVec.ofBool cur.bit

/-- The dispatch word `d[4:0] = {phase[1:0], prev, cur, pend}` (R48). -/
def dispatchWordOf (phase : Phase) (prev cur : Level) (pend : Bool) : DispatchWord :=
  phase.code ++ BitVec.ofBool prev.bit ++ BitVec.ofBool cur.bit ++ BitVec.ofBool pend

/-! ### Decoders -/

/-- Format E: all four words are defined (R47). -/
def decodeEdge (e : EdgeWord) : Instr :=
  match e.getLsbD 1, e.getLsbD 0 with
  | true, false => .edgeFall
  | false, true => .edgeRise
  | false, false => .edgeNoneLow
  | true, true => .edgeNoneHigh

/-- Format D: the dispatch map, row by row (R49). -/
def decodeDispatch (d : DispatchWord) : Instr :=
  let prev := Level.ofBit (d.getLsbD 2)
  let cur := Level.ofBit (d.getLsbD 1)
  let pend := d.getLsbD 0
  match Phase.ofCode (d.extractLsb' 3 2) with
  | .idle =>
    match prev, cur with
    | .high, .low => .start pend
    | .high, .high => .nopIdleHigh pend
    | .low, c => .nopIdleLow c pend
  | .active =>
    match pend, prev, cur with
    | true, p, c => .byte p c
    | false, .low, .high => .endAction
    | false, .low, .low => .nopActiveLow
    | false, .high, c => .nopActiveHigh c
  | .draining => .reserved false prev cur pend
  | .reserved => .reserved true prev cur pend

/-- An operation without operand: `a` must be 0 (R51, R53). -/
def decodeBare (a : BitVec 5) (i : Instr) : Except DecodeError Instr :=
  if a = 0#5 then .ok i else .error .strayOperand

/-- Format U: `u[7:0] = {op[2:0], a[4:0]}` (R51), the reserved words refused by name (R53). -/
def decodeMicro (u : MicroWord) : Except DecodeError Instr :=
  let a : BitVec 5 := u.extractLsb' 0 5
  let lines := LineSet.ofMask (u.extractLsb' 0 4)
  match (u.extractLsb' 5 3).toNat with
  | 0 =>
    if a.getLsbD 4 then .error .toggleLevelBit
    else if lines.nonEmpty then .ok (.tgl lines) else .error .emptyLineSet
  | 1 => if lines.nonEmpty then .ok (.set (Level.ofBit (a.getLsbD 4)) lines) else .error .emptyLineSet
  | 2 => if a = 0#5 then .error .zeroDelay else .ok (.dly a.toNat)
  | 3 => decodeBare a .rstexp
  | 4 => decodeBare a .rstcnt
  | 5 => decodeBare a .incexp
  | 6 => decodeBare a .latchprev
  | _ =>
    if a.extractLsb' 2 3 ≠ 0#3 then .error .strayPhaseBits
    else if a.extractLsb' 0 2 = 0b11#2 then .error .reservedPhase
    else .ok (.setphase (Phase.ofCode (a.extractLsb' 0 2)))

/-- The decoder of a word whose format is known. -/
def decode : TableWord → Except DecodeError Instr
  | .edge e => .ok (decodeEdge e)
  | .dispatch d => .ok (decodeDispatch d)
  | .micro u => decodeMicro u

/-! ### Encoder -/

/-- A micro-operation word from its two fields (R51). -/
def microWord (op : BitVec 3) (a : BitVec 5) : TableWord := .micro (op ++ a)

/-- The word of an instruction (R47, R49, R51). -/
def encode : Instr → TableWord
  | .start pend => .dispatch (dispatchWordOf .idle .high .low pend)
  | .byte prev cur => .dispatch (dispatchWordOf .active prev cur true)
  | .endAction => .dispatch (dispatchWordOf .active .low .high false)
  | .nopIdleLow cur pend => .dispatch (dispatchWordOf .idle .low cur pend)
  | .nopIdleHigh pend => .dispatch (dispatchWordOf .idle .high .high pend)
  | .nopActiveLow => .dispatch (dispatchWordOf .active .low .low false)
  | .nopActiveHigh cur => .dispatch (dispatchWordOf .active .high cur false)
  | .reserved upper prev cur pend =>
    .dispatch (dispatchWordOf (if upper then .reserved else .draining) prev cur pend)
  | .edgeFall => .edge (edgeWordOf .high .low)
  | .edgeRise => .edge (edgeWordOf .low .high)
  | .edgeNoneLow => .edge (edgeWordOf .low .low)
  | .edgeNoneHigh => .edge (edgeWordOf .high .high)
  | .tgl lines => microWord 0b000#3 (0#1 ++ lines.mask)
  | .set v lines => microWord 0b001#3 (BitVec.ofBool v.bit ++ lines.mask)
  | .dly n => microWord 0b010#3 (BitVec.ofNat 5 n)
  | .rstexp => microWord 0b011#3 0#5
  | .rstcnt => microWord 0b100#3 0#5
  | .incexp => microWord 0b101#3 0#5
  | .latchprev => microWord 0b110#3 0#5
  | .setphase p => microWord 0b111#3 (0#3 ++ p.code)

/-! ### Lengths, and a word as the opcode table numbers it -/

/-- The length in bits of a word: each format has one (R58). -/
def TableWord.length : TableWord → Nat
  | .edge _ => 2
  | .dispatch _ => 5
  | .micro _ => 8

/-- The bits of a word as a number. -/
def TableWord.bits : TableWord → Nat
  | .edge e => e.toNat
  | .dispatch d => d.toNat
  | .micro u => u.toNat

/-- The word of a length with given bits: the length alone says the format, 2 bits an edge word, 5 bits a dispatch word, 8 bits a
micro-operation word, and no other length is a word (R58). -/
def wordOfLength (length bits : Nat) : Option TableWord :=
  match length with
  | 2 => if bits < 4 then some (.edge (BitVec.ofNat 2 bits)) else none
  | 5 => if bits < 32 then some (.dispatch (BitVec.ofNat 5 bits)) else none
  | 8 => if bits < 256 then some (.micro (BitVec.ofNat 8 bits)) else none
  | _ => none

/-- The word the host's interface means by `nbits` and `w`. Below a byte `nbits` is the length, and R58 says the format. From a byte
on it is a length rounded up to whole bytes, which is 8 for all three formats and so is not the length of R58; the word is then
the shortest that has these bits. Nothing of the block reads a word this way. DESIGN CHOICE, safe: log 10. -/
def tableWordOf (nbits w : Nat) : Option TableWord :=
  if nbits < 8 then wordOfLength nbits w
  else ((wordOfLength 2 w).or (wordOfLength 5 w)).or (wordOfLength 8 w)

/-- What the decoder reads from the table's word (log 10). -/
def decodeTableWord (nbits w : Nat) : Option Instr :=
  match tableWordOf nbits w with
  | none => none
  | some word =>
    match decode word with
    | .ok i => some i
    | .error _ => none

end Sys2Proof
end

