-- ==== Sys2Proof/Machine/State.lean ====
section
/-! DEFINITION. The state of the bridge as plain data (R10, R20, R21), the reasons a step can stop, and the state after reset
(R23, R127). -/

namespace Sys2Proof.Machine

/-- The block raises no exception and has no error state (R113): no step and no meaning ends in a fault, so there is no reason
to name. Safe: nothing could be proved of a fault that the block does not have (DEDUCED, log 18). -/
inductive Fault where
deriving DecidableEq, Repr

/-- Why the model refuses to go on. "A model's only refusals are of encodings that cannot occur" (R113). -/
inductive Refusal where
  /-- An instruction without a meaning yet, raised by `exec`'s arm alone. Safe. -/
  | notModelled (mnemonic : String)
  /-- A dispatch word with `d[4] = 1`, raised by the meaning of RESERVED (R50). Safe: no run reaches it. -/
  | reservedDispatchWord (d : DispatchWord)
  /-- A malformed micro-operation word, raised by the step that fetches it (R53). Safe: no micro-program holds one. -/
  | reservedMicroWord (u : MicroWord)
  /-- A state that holds the reserved phase `0b11` away from a poll point, raised by the step (R46). Safe: no operation writes
  it (DESIGN CHOICE, log 7). -/
  | reservedPhaseHeld
  /-- A sequencer position beyond the end of its micro-program, raised by the step; no rule gives it a step (R17, R90). Safe: no
  run reaches it (DESIGN CHOICE, log 16). -/
  | positionBeyondProgram
deriving DecidableEq, Repr

/-- The output latch, four independent one-bit fields (R16). -/
structure Outputs where
  sioClk : Level
  spiClk : Level
  sync   : Level
  flow   : Level
deriving DecidableEq, Repr

/-- The level an output line holds. -/
def Outputs.get (o : Outputs) : OutLine → Level
  | .sioClk => o.sioClk
  | .spiClk => o.spiClk
  | .sync => o.sync
  | .flow => o.flow

/-- The initial levels that `configure()` sets: sync HIGH, flow-control HIGH, both clocks LOW (R16, R127). -/
def Outputs.initial : Outputs := { sioClk := .low, spiClk := .low, sync := .high, flow := .high }

/-- The micro-program the sequencer runs. -/
inductive Program where
  /-- Session-Start (R102). -/
  | start
  /-- Byte-Clock (R104). -/
  | byte
  /-- Session-End (R106). -/
  | endAction
  /-- One micro-operation word placed by the host's interface; no step of the block enters it. DESIGN CHOICE, safe: log 11. -/
  | single (u : MicroWord)
deriving DecidableEq, Repr

/-- `seq = (act, upc)` (R17): the poll point `(POLL, 0)`, or the index of the next micro-operation of a micro-program. -/
inductive Seq where
  | poll
  | run (act : Program) (upc : Nat)
deriving DecidableEq, Repr

/-- A step the environment is still to take: it drives a line to a level at `time`, after `skip` further steps that the
sequencer takes at that very time (R39, R41, R57). `skip = 0` is R57's tie rule, the environment first. DESIGN CHOICE, safe:
log 1. -/
structure Stimulus where
  time  : Nat
  skip  : Nat
  line  : InLine
  level : Level
deriving DecidableEq, Repr

/-- One event of the output trace: the lines that change at one instant and their new levels (R7, R34). -/
structure TraceEvent where
  time    : Nat
  changes : List (OutLine × Level)
deriving DecidableEq, Repr

/-- The state: the eleven rows of R10, the condition value `edge` of R20, the levels on the two input lines and the time (R21), the
output trace (R7), and four fields of the model's own (`env`, `overheads`, `iter` and the way `log` is kept). -/
structure State where
  /-- `prev` (R11). -/
  prev : Level
  /-- `cur` (R12). -/
  cur : Level
  /-- `exp`, ExpectedPulseCount (R13). -/
  exp : Count
  /-- `pcnt`, PulseCounter (R14). -/
  pcnt : Count
  /-- `phase` (R15). -/
  phase : Phase
  /-- The output latch (R16). -/
  out : Outputs
  /-- `seq`, the sequencer position (R17). -/
  seq : Seq
  /-- `dly`, the time-units left in the current wait (R18). -/
  dly : Nat
  /-- `preq_last`, the level of `PREQ` as the counting hardware last saw it (R19). -/
  preqLast : Level
  /-- The level the environment drives on `FRAMING` (R21, R31). -/
  framing : Level
  /-- The level the environment drives on `PREQ` (R21, R31). -/
  preq : Level
  /-- The condition value `edge` between classification and dispatch (R20); absent between steps. DESIGN CHOICE, safe: log 8. -/
  edge : Option EdgeClass
  /-- The environment's steps still to come, in order (log 1). -/
  env : List Stimulus
  /-- The `T_ITER` of the coming iterations, the last for all later ones; empty: free (log 3). -/
  overheads : List Nat
  /-- How many iteration overheads have been spent; selects the free `T_ITER` (log 3). -/
  iter : Nat
  /-- The current time in time-units from the end of reset (R21, R57). -/
  now : Nat
  /-- The output trace, newest event first (R7; log 12). -/
  log : List TraceEvent
deriving DecidableEq, Repr

/-- The output trace in the order of time (R7). -/
def State.trace (s : State) : List TraceEvent := s.log.reverse

/-! One update for each field, so that later proofs rewrite by the lemmas of Laws/State.lean. -/

def State.setPrev (s : State) (v : Level) : State := { s with prev := v }
def State.setCur (s : State) (v : Level) : State := { s with cur := v }
def State.setExp (s : State) (v : Count) : State := { s with exp := v }
def State.setPcnt (s : State) (v : Count) : State := { s with pcnt := v }
def State.setPhase (s : State) (v : Phase) : State := { s with phase := v }
def State.setOut (s : State) (v : Outputs) : State := { s with out := v }
def State.setSeq (s : State) (v : Seq) : State := { s with seq := v }
def State.setDly (s : State) (v : Nat) : State := { s with dly := v }
def State.setPreqLast (s : State) (v : Level) : State := { s with preqLast := v }
def State.setFraming (s : State) (v : Level) : State := { s with framing := v }
def State.setPreq (s : State) (v : Level) : State := { s with preq := v }
def State.setEdge (s : State) (v : Option EdgeClass) : State := { s with edge := v }
def State.setEnv (s : State) (v : List Stimulus) : State := { s with env := v }
def State.setOverheads (s : State) (v : List Nat) : State := { s with overheads := v }
def State.setIter (s : State) (v : Nat) : State := { s with iter := v }
def State.setNow (s : State) (v : Nat) : State := { s with now := v }
def State.setLog (s : State) (v : List TraceEvent) : State := { s with log := v }

/-! ### Reset -/

/-- The state after `Reset()` (R23, R127) where the framing line has the level `framing` and `PREQ` the level `preq` at that moment,
with no stimulus to come, no stated overhead, time 0 and an empty trace. -/
def State.launch (framing preq : Level) : State :=
  { prev := framing
    cur := framing
    exp := 0
    pcnt := 0
    phase := .idle
    out := Outputs.initial
    seq := .poll
    dly := 0
    preqLast := preq
    framing := framing
    preq := preq
    edge := none
    env := []
    overheads := []
    iter := 0
    now := 0
    log := [] }

/-- The state after reset. The spec leaves the two input levels open and asks for `FRAMING = HIGH` (R130, R131); both are taken HIGH
here, and `State.launch` has all four cases. DESIGN CHOICE, unsafe: log 2. -/
def State.reset : State := State.launch .high .high

end Sys2Proof.Machine
end

