-- ==== Sys2Proof/Machine/Flags.lean ====
section
/-! DEFINITION. The two condition values `edge` and `pend` (R20) and the selection made from them (R81). No operation of the block
has a flag side effect. -/

namespace Sys2Proof.Machine

/-- `Classify(prev, cur)` (R61). -/
def classify (prev cur : Level) : EdgeClass :=
  match prev, cur with
  | .high, .low => .falling
  | .low, .high => .rising
  | .low, .low => .noEdge
  | .high, .high => .noEdge

/-- `pend`: the counter, as read, differs from the shadow count (R72). Inequality, not an ordered comparison. -/
def pendOf (counter exp : Count) : Bool := counter != exp

/-- The backlog `(pcnt - exp) mod 256` (R19, R75). -/
def backlog (counter exp : Count) : Count := counter - exp

/-- `Dispatch(phase, edge, pend)` (R81). Draining and the reserved phase have no action. -/
def dispatch (phase : Phase) (edge : EdgeClass) (pend : Bool) : Option Action :=
  match phase with
  | .idle => if edge = .falling then some .start else some .nop
  | .active =>
    if pend then some .byte
    else if edge = .rising then some .endAction
    else some .nop
  | .draining => none
  | .reserved => none

end Sys2Proof.Machine
end

