-- ==== Sys2Proof/Config.lean ====
section
/-! DEFINITION. The parameters of the block (R5) and its one free value, the iteration overhead `T_ITER`. -/

namespace Sys2Proof.Config

/-- `W`, the time one clock level is held in a full clock cycle: 50 time-units (R5). UNVERIFIED literal, unsafe: log 6. -/
def halfPulse : Nat := 50

/-- `W2 = W / 2`, the wait used inside a bit slot: 25 time-units (R5, R9). -/
def quarterPulse : Nat := halfPulse / 2

/-- `N_PRIME`, the full SIO clock cycles of Session-Start (R5). UNVERIFIED literal, unsafe: log 6. -/
def primeCycles : Nat := 2

/-- `N_BITS`, the bit slots of one Byte-Clock burst (R5). UNVERIFIED literal, unsafe: log 6. -/
def bitSlots : Nat := 8

/-- `N_FLUSH`, the full SIO clock cycles of Session-End (R5). UNVERIFIED literal, unsafe: log 6. -/
def flushCycles : Nat := 16

/-- `T_ITER` of iteration number `k` where no launch states it: OPEN, any finite value `>= 0`, possibly different in every
iteration (R5, R93). A free value: it has no body. Safe: log 3. -/
opaque freeTIter : Nat → Nat

end Sys2Proof.Config
end

