-- ==== Sys2Proof/Machine/Operands.lean ====
section
/-! DEFINITION. The two kinds of operand (R52): a duration in half-units and a set of output lines, with what a toggle and a set
make of the output latch and which line changes they are. -/

namespace Sys2Proof.Machine

/-- The duration of `DLY n` in time-units, `n * W2` (R52 a, R97). -/
def duration (n : Nat) : Nat := n * Config.quarterPulse

/-- Flip every line of the set (R95). -/
def Outputs.toggle (o : Outputs) (lines : LineSet) : Outputs :=
  { sioClk := if lines.sioClk then o.sioClk.not else o.sioClk
    spiClk := if lines.spiClk then o.spiClk.not else o.spiClk
    sync := if lines.sync then o.sync.not else o.sync
    flow := if lines.flow then o.flow.not else o.flow }

/-- Drive every line of the set to a level (R96). -/
def Outputs.drive (o : Outputs) (level : Level) (lines : LineSet) : Outputs :=
  { sioClk := if lines.sioClk then level else o.sioClk
    spiClk := if lines.spiClk then level else o.spiClk
    sync := if lines.sync then level else o.sync
    flow := if lines.flow then level else o.flow }

/-- The lines of the set whose level differs between two latches, in mask order, with their new levels: what one operation
emits (R7, R95, R96; 00_scope.md section 5, "Trace"). -/
def lineChanges (lines : LineSet) (before after : Outputs) : List (OutLine × Level) :=
  (OutLine.all.filter fun l => lines.has l && decide (before.get l ≠ after.get l)).map fun l => (l, after.get l)

end Sys2Proof.Machine
end

