-- ==== Sys2Proof/Machine/Ops.lean ====
section
/-! DEFINITION. The access primitives of the line space and the counter port (R32), the steps that no word selects (`SAMPLE`, `COUNT`),
the iteration overhead (R93), and the reading of the condition values. The block has no memory and takes no exception (R30, R113,
R117, R118), so there is no operation for either. -/

namespace Sys2Proof.Machine

/-! ### Access primitives (R32) -/

/-- `LineRead(l)`: the level the environment drives at this instant; a read changes nothing (R33, R37). -/
def lineRead (s : State) : InLine → Level
  | .framing => s.framing
  | .preq => s.preq

/-- Append the changes of one instant to the output trace; a write that changes no line emits nothing (R7, R34, R96). Log 12. -/
def emit (s : State) (changes : List (OutLine × Level)) : State :=
  if changes.isEmpty then s else s.setLog ({ time := s.now, changes := changes } :: s.log)

/-- Replace the output latch and emit the changes of the named lines, all at one instant (R34). -/
def latchOutputs (s : State) (lines : LineSet) (after : Outputs) : State :=
  (emit s (lineChanges lines s.out after)).setOut after

/-- `LineToggle(S)` (R32, R34, R95). -/
def lineToggle (s : State) (lines : LineSet) : State := latchOutputs s lines (s.out.toggle lines)

/-- `LineWrite(l, v)` for every line of a set (R32, R96). -/
def lineWrite (s : State) (level : Level) (lines : LineSet) : State := latchOutputs s lines (s.out.drive level lines)

/-- `CntRead()`: the whole 8-bit count, unchanged by the read (R32, R33, R70). -/
def cntRead (s : State) : Count := s.pcnt

/-- `CntReset()`: `pcnt <- 0`; `preq_last` is not changed (R32, R71). -/
def cntReset (s : State) : State := s.setPcnt 0

/-- `Delay(d)`: the sequencer takes no other step for `d` time-units (R32, R40, R97). -/
def delay (s : State) (d : Nat) : State := s.setDly d

/-! ### The polling iteration (R80) -/

/-- `SAMPLE`: `cur <- LineRead(FRAMING)` (R60). -/
def sample (s : State) : State := s.setCur (lineRead s .framing)

/-- `pend` as the dispatch reads it: `CntRead() != exp` (R72). -/
def pending (s : State) : Bool := pendOf (cntRead s) s.exp

/-- The edge word of the two snapshots (R47). -/
def edgeWord (s : State) : EdgeWord := edgeWordOf s.prev s.cur

/-- The dispatch word of this iteration (R48). -/
def dispatchWord (s : State) : DispatchWord := dispatchWordOf s.phase s.prev s.cur (pending s)

/-- Hold the class of this iteration until its dispatch (R20, R61); no row of R10 is written. Log 8. -/
def report (s : State) (class_ : EdgeClass) : State := s.setEdge (some class_)

/-- Enter a micro-program at its first micro-operation (R90, step kind 1); the condition value is consumed (R20). Log 9. -/
def enter (s : State) (act : Program) : State := (s.setSeq (.run act 0)).setEdge none

/-- The overhead of the iteration that ends now: as the launch stated it, the last stated value standing for every later
iteration, else the free value (R93). Log 3. -/
def iterationOverhead (s : State) : Nat :=
  match s.overheads with
  | [] => Config.freeTIter s.iter
  | t :: _ => t

/-- The overheads that are left for later iterations (log 3). -/
def laterOverheads : List Nat → List Nat
  | [] => []
  | [t] => [t]
  | _ :: t :: ts => t :: ts

/-- Go back to the poll point and spend `t` time-units on the way (R90, step kind 4; R93). Log 4. -/
def spendOverhead (s : State) (t : Nat) : State :=
  (((s.setSeq .poll).setDly t).setOverheads (laterOverheads s.overheads)).setIter (s.iter + 1)

/-- No action in this iteration: its whole cost is `T_ITER`, which is above 0 here (R85, R93, R147). Log 3. -/
def selectNothing (s : State) : State := (spendOverhead s (max 1 (iterationOverhead s))).setEdge none

/-! ### The pulse counter and the environment (R39, R68) -/

/-- The environment drives a line to a level. On `PREQ` the counting hardware takes its step `COUNT` at that same instant: a fall
adds one modulo 256, and `preq_last` follows the line (R39, R68, R69). -/
def driveLine (s : State) (line : InLine) (level : Level) : State :=
  match line with
  | .framing => s.setFraming level
  | .preq =>
    let counted := if s.preqLast = .high ∧ level = .low then s.setPcnt (s.pcnt + 1) else s
    (counted.setPreqLast level).setPreq level

end Sys2Proof.Machine
end

