-- ==== Sys2Proof/Machine/EdgeDetector.lean ====
section
/-! DEFINITION. The framing-line edge detector: the three outputs of the classifier and `LATCHPREV` (40_edge_detector.md). -/

namespace Sys2Proof.Machine

/-- EDGE.FALL: FallingEdge is reported to this iteration's dispatch; no state is written (R62). -/
def execEdgeFall (s : State) : Host.Outcome State Fault Refusal := .next (report s .falling)

/-- EDGE.RISE: RisingEdge is reported to this iteration's dispatch; no state is written (R63). -/
def execEdgeRise (s : State) : Host.Outcome State Fault Refusal := .next (report s .rising)

/-- EDGE.NONE with both snapshots LOW: NoEdge; no state is written (R64). -/
def execEdgeNoneLow (s : State) : Host.Outcome State Fault Refusal := .next (report s .noEdge)

/-- EDGE.NONE with both snapshots HIGH: NoEdge; no state is written (R64). -/
def execEdgeNoneHigh (s : State) : Host.Outcome State Fault Refusal := .next (report s .noEdge)

/-- LATCHPREV: `prev <- cur`, the sample of the poll point and no fresh reading (R65). -/
def execLatchprev (s : State) : Host.Outcome State Fault Refusal := .next (s.setPrev s.cur)

end Sys2Proof.Machine
end

