-- ==== Sys2Proof/Machine/ProtocolActions.lean ====
section
/-! DEFINITION. The output micro-operations (43_protocol_actions.md, section 1). -/

namespace Sys2Proof.Machine

/-- TGL: every line of the set flips at one instant; the new level depends on the old one (R95). -/
def execTgl (lines : LineSet) (s : State) : Host.Outcome State Fault Refusal := .next (lineToggle s lines)

/-- SET: every line of the set takes the level; a line that has it already emits no change (R96). -/
def execSet (level : Level) (lines : LineSet) (s : State) : Host.Outcome State Fault Refusal :=
  .next (lineWrite s level lines)

/-- DLY: the sequencer is blocked for `n * W2` time-units; no other state changes (R97). -/
def execDly (n : Nat) (s : State) : Host.Outcome State Fault Refusal := .next (delay s (duration n))

/-- SETPHASE: `phase <- p` (R98). -/
def execSetphase (p : Phase) (s : State) : Host.Outcome State Fault Refusal := .next (s.setPhase p)

end Sys2Proof.Machine
end

