-- ==== Sys2Proof/Machine/PulseCounter.lean ====
section
/-! DEFINITION. The operations on the shadow count and on the pulse counter (41_pulse_counter.md). -/

namespace Sys2Proof.Machine

/-- RSTEXP: `exp <- 0` (R74). -/
def execRstexp (s : State) : Host.Outcome State Fault Refusal := .next (s.setExp 0)

/-- RSTCNT: `CntReset()` (R71). -/
def execRstcnt (s : State) : Host.Outcome State Fault Refusal := .next (cntReset s)

/-- INCEXP: `exp <- (exp + 1) mod 256`, silent at the wrap (R73). -/
def execIncexp (s : State) : Host.Outcome State Fault Refusal := .next (s.setExp (s.exp + 1))

end Sys2Proof.Machine
end

