-- ==== Sys2Proof/Machine/SessionFsm.lean ====
section
/-! DEFINITION. The dispatch word's rows: which micro-program the sequencer enters, or that it does nothing (42_session_fsm.md). The
micro-program itself runs in the steps that follow (R90, step kind 2). -/

namespace Sys2Proof.Machine

/-- START: the Session-Start micro-program is entered, whatever `pend` is (R82, R90, R102). DEDUCED, safe: log 9. -/
def execStart (_pend : Bool) (s : State) : Host.Outcome State Fault Refusal := .next (enter s .start)

/-- BYTE: the Byte-Clock micro-program is entered, whatever the edge class is (R83, R90, R104). DEDUCED, safe: log 9. -/
def execByte (_prev _cur : Level) (s : State) : Host.Outcome State Fault Refusal := .next (enter s .byte)

/-- END: the Session-End micro-program is entered (R84, R90, R106). DEDUCED, safe: log 9. -/
def execEndAction (s : State) : Host.Outcome State Fault Refusal := .next (enter s .endAction)

/-- NOP in Idle with `prev = LOW`: NoEdge or RisingEdge, neither acted upon (R85, R92). -/
def execNopIdleLow (_cur : Level) (_pend : Bool) (s : State) : Host.Outcome State Fault Refusal :=
  .next (selectNothing s)

/-- NOP in Idle with both snapshots HIGH (R85). -/
def execNopIdleHigh (_pend : Bool) (s : State) : Host.Outcome State Fault Refusal := .next (selectNothing s)

/-- NOP in Active with both snapshots LOW and nothing pending (R85). -/
def execNopActiveLow (s : State) : Host.Outcome State Fault Refusal := .next (selectNothing s)

/-- NOP in Active with `prev = HIGH` and nothing pending (R85, R92). -/
def execNopActiveHigh (_cur : Level) (s : State) : Host.Outcome State Fault Refusal := .next (selectNothing s)

/-- RESERVED: "A model refuses them; it must not give them an action" (R50). -/
def execReserved (upper : Bool) (prev cur : Level) (pend : Bool) (_s : State) : Host.Outcome State Fault Refusal :=
  .refused (.reservedDispatchWord (dispatchWordOf (if upper then .reserved else .draining) prev cur pend))

/-- The action a dispatch instruction is, by its mnemonic; RESERVED has none (R49). -/
def selectedAction : Instr → Option Action
  | .start _ => some .start
  | .byte _ _ => some .byte
  | .endAction => some .endAction
  | .nopIdleLow _ _ => some .nop
  | .nopIdleHigh _ => some .nop
  | .nopActiveLow => some .nop
  | .nopActiveHigh _ => some .nop
  | _ => none

end Sys2Proof.Machine
end

