-- ==== Sys2Proof/Machine/Dispatch.lean ====
section
/-! DEFINITION. One arm for each constructor of Instr, each one direct call of its meaning. -/

namespace Sys2Proof.Machine

def exec (i : Instr) (s : State) : Host.Outcome State Fault Refusal :=
  match i with
  | .start pend => Sys2Proof.Machine.execStart pend s
  | .byte prev cur => Sys2Proof.Machine.execByte prev cur s
  | .endAction => Sys2Proof.Machine.execEndAction s
  | .nopIdleLow cur pend => Sys2Proof.Machine.execNopIdleLow cur pend s
  | .nopIdleHigh pend => Sys2Proof.Machine.execNopIdleHigh pend s
  | .nopActiveLow => Sys2Proof.Machine.execNopActiveLow s
  | .nopActiveHigh cur => Sys2Proof.Machine.execNopActiveHigh cur s
  | .reserved upper prev cur pend => Sys2Proof.Machine.execReserved upper prev cur pend s
  | .edgeFall => Sys2Proof.Machine.execEdgeFall s
  | .edgeRise => Sys2Proof.Machine.execEdgeRise s
  | .edgeNoneLow => Sys2Proof.Machine.execEdgeNoneLow s
  | .edgeNoneHigh => Sys2Proof.Machine.execEdgeNoneHigh s
  | .tgl lines => Sys2Proof.Machine.execTgl lines s
  | .set level lines => Sys2Proof.Machine.execSet level lines s
  | .dly n => Sys2Proof.Machine.execDly n s
  | .rstexp => Sys2Proof.Machine.execRstexp s
  | .rstcnt => Sys2Proof.Machine.execRstcnt s
  | .incexp => Sys2Proof.Machine.execIncexp s
  | .latchprev => Sys2Proof.Machine.execLatchprev s
  | .setphase p => Sys2Proof.Machine.execSetphase p s

end Sys2Proof.Machine
end

