-- ==== Sys2Proof/Machine/Environment.lean ====
section
/-! DEFINITION. The environment's steps as data: when a stimulus is due, how a sequencer step passes it by. -/

namespace Sys2Proof.Machine

/-- A stimulus is due at its time once its `skip` steps have passed, and at any later time (R39, R57; log 1). -/
def Stimulus.due (e : Stimulus) (now : Nat) : Bool :=
  decide (e.time < now) || (decide (e.time = now) && decide (e.skip = 0))

/-- The stimulus that is to be taken before the sequencer's next step, with the ones that follow it. -/
def dueStimulus (s : State) : Option (Stimulus × List Stimulus) :=
  match s.env with
  | [] => none
  | e :: rest => if e.due s.now then some (e, rest) else none

/-- The environment takes one step (R39). -/
def environmentStep (s : State) (e : Stimulus) (rest : List Stimulus) : State :=
  driveLine (s.setEnv rest) e.line e.level

/-- One sequencer step at the present time is one step less for the next stimulus of this time to wait (log 1). -/
def passStimulus (s : State) : State :=
  match s.env with
  | [] => s
  | e :: rest => if e.time = s.now then s.setEnv ({ e with skip := e.skip - 1 } :: rest) else s

/-- The stimuli that are not due at the present time, from the first such on. -/
def withoutDue (s : State) : State := s.setEnv (s.env.dropWhile fun e => e.due s.now)

end Sys2Proof.Machine
end

