-- ==== Sys2Proof/Machine/Programs.lean ====
section
/-! DEFINITION. The three micro-programs as words (R99, R102, R104, R106), written out from the macros `CYCLE` and `SLOT` (R56) and the
repeat counts of Config. They are fixed text: no operation writes them (R42). -/

namespace Sys2Proof.Machine

/-- `CYCLE {SIO_CLK}`: one full clock cycle, `01 42 01 42` (R56). -/
def cycleWords : List MicroWord := [0x01, 0x42, 0x01, 0x42]

/-- `SLOT`: one bit slot, `03 41 24 41 03 42` (R56; C1, C2). -/
def slotWords : List MicroWord := [0x03, 0x41, 0x24, 0x41, 0x03, 0x42]

/-- `k` copies of a list of words, one after the other. -/
def repeatWords (ws : List MicroWord) : Nat → List MicroWord
  | 0 => []
  | k + 1 => ws ++ repeatWords ws k

/-- START: two priming cycles, `TGL {FLOW}`, `LATCHPREV`, `SETPHASE Active` (R102). -/
def startWords : List MicroWord := repeatWords cycleWords Config.primeCycles ++ [0x08, 0xC0, 0xE1]

/-- BYTE: eight bit slots, `INCEXP` (R104). -/
def byteWords : List MicroWord := repeatWords slotWords Config.bitSlots ++ [0xA0]

/-- END: `SETPHASE Draining`, sixteen flush cycles, `SET {SYNC}, HIGH`, `SET {FLOW}, HIGH`, `RSTEXP`, `RSTCNT`, `LATCHPREV`,
`SETPHASE Idle` (R106; C7). -/
def endWords : List MicroWord :=
  [0xE2] ++ repeatWords cycleWords Config.flushCycles ++ [0x34, 0x38, 0x60, 0x80, 0xC0, 0xE0]

/-- The words of a micro-program. -/
def programWords : Program → List MicroWord
  | .start => startWords
  | .byte => byteWords
  | .endAction => endWords
  | .single u => [u]

end Sys2Proof.Machine
end

