-- ==== Sys2Proof/Machine/Sequencer.lean ====
section
/-! DEFINITION. Whose step is next and what it starts from (R39, R90): everything of the step but the call of `exec`. -/

namespace Sys2Proof.Machine

/-- The next step of the machine (R39, R90). -/
inductive Turn where
  /-- The environment drives a line. -/
  | environment (e : Stimulus) (rest : List Stimulus)
  /-- Step kind 1 of R90: sample, classify, dispatch. -/
  | poll
  /-- Step kind 2 of R90: execute the micro-operation just fetched. -/
  | micro (i : Instr)
  /-- Step kind 3 of R90: one time-unit passes. -/
  | wait
  /-- Step kind 4 of R90 at the end of a micro-program. -/
  | iterationEnd
  /-- No step: the model refuses the state. -/
  | refuse (r : Refusal)
deriving DecidableEq, Repr

/-- The sequencer's next step inside or at the end of a micro-program (R90, R99). -/
def microTurn (act : Program) (upc : Nat) : Turn :=
  match (programWords act)[upc]? with
  | some u =>
    match decodeMicro u with
    | .ok i => .micro i
    | .error _ => .refuse (.reservedMicroWord u)
  | none => if upc = (programWords act).length then .iterationEnd else .refuse .positionBeyondProgram

/-- The sequencer's next step (R90). -/
def sequencerTurn (s : State) : Turn :=
  if s.dly ≠ 0 then .wait
  else
    match s.seq with
    | .poll => .poll
    | .run act upc => microTurn act upc

/-- A state that holds the reserved phase is refused (R46); at a poll point its dispatch word is, by the meaning of RESERVED (R50).
Log 7. -/
def refuseReservedPhase (s : State) (t : Turn) : Turn :=
  if s.phase = .reserved ∧ t ≠ .poll then .refuse .reservedPhaseHeld else t

/-- Whose step is next: a due step of the environment comes before the sequencer's (R57; log 1). -/
def nextTurn (s : State) : Turn :=
  refuseReservedPhase s <|
    match dueStimulus s with
    | some (e, rest) => .environment e rest
    | none => sequencerTurn s

/-- One time-unit of a wait passes; no output changes, nothing is sampled, `seq` does not advance (R18). -/
def tick (s : State) : State := ((passStimulus s).setDly (s.dly - 1)).setNow (s.now + 1)

/-- The state a polling iteration classifies: after `SAMPLE` (R80 a). -/
def sampled (s : State) : State := sample (passStimulus s)

/-- The classification of this iteration (R80 b). -/
def edgeInstr (s : State) : Instr := decodeEdge (edgeWord s)

/-- The selection of this iteration (R80 c). -/
def dispatchInstr (s : State) : Instr := decodeDispatch (dispatchWord s)

/-- `seq <- (act, i + 1)` around a micro-operation (R90, step kind 2). -/
def advanced (s : State) : State :=
  match s.seq with
  | .poll => passStimulus s
  | .run act upc => (passStimulus s).setSeq (.run act (upc + 1))

/-- The end of an action's iteration: spend `T_ITER` and go back to the poll point (R90, step kind 4; R93). -/
def endIteration (s : State) : State := spendOverhead (passStimulus s) (iterationOverhead s)

/-! ### The place a word is fetched from -/

/-- The state with an edge word where the next poll forms it: `prev`, and the level it will sample (R47, R60). Log 11. -/
def placeEdgeWord (s : State) (e : EdgeWord) : State :=
  ((((withoutDue s).setSeq .poll).setDly 0).setPrev (Level.ofBit (e.getLsbD 1))).setFraming (Level.ofBit (e.getLsbD 0))

/-- The state with a dispatch word where the next poll forms it: the phase, `prev`, the level it will sample, and a shadow count equal
to the counter or one behind it (R48, R72). Log 11. -/
def placeDispatchWord (s : State) (d : DispatchWord) : State :=
  let edges := placeEdgeWord s (d.extractLsb' 1 2)
  (edges.setPhase (Phase.ofCode (d.extractLsb' 3 2))).setExp (if d.getLsbD 0 then s.pcnt - 1 else s.pcnt)

/-- The state about to run one micro-operation word (log 11). -/
def placeMicroWord (s : State) (u : MicroWord) : State :=
  ((withoutDue s).setSeq (.run (.single u) 0)).setDly 0

/-- The state with a word placed where the next step fetches it (log 11). -/
def placeWord (s : State) : TableWord → State
  | .edge e => placeEdgeWord s e
  | .dispatch d => placeDispatchWord s d
  | .micro u => placeMicroWord s u

end Sys2Proof.Machine
end

