-- ==== Sys2Proof/Machine/Step.lean ====
section
/-! DEFINITION. One step of the machine (R39, R90), and a word placed where the next step fetches it. -/

namespace Sys2Proof.Machine

/-- The polling step: `SAMPLE`, the edge word's instruction, then the dispatch word's, at one instant (R80, R90 step kind 1). -/
def pollStep (s : State) : Host.Outcome State Fault Refusal :=
  match exec (edgeInstr (sampled s)) (sampled s) with
  | .next t => exec (dispatchInstr t) t
  | .fault r => .fault r
  | .refused r => .refused r

/-- One step: of the environment with the pulse counter, or of the sequencer (R39, R68, R90). -/
def step (s : State) : Host.Outcome State Fault Refusal :=
  match nextTurn s with
  | .environment e rest => .next (environmentStep s e rest)
  | .poll => pollStep s
  | .micro i => exec i (advanced s)
  | .wait => .next (tick s)
  | .iterationEnd => .next (endIteration s)
  | .refuse r => .refused r

/-- The state whose next step fetches and runs the instruction with the table's word `w`; where the table has no such word the state is
unchanged (log 11). -/
def State.withFetchWord (s : State) (nbits w : Nat) : State :=
  match tableWordOf nbits w with
  | some word => placeWord s word
  | none => s

end Sys2Proof.Machine
end

