-- ==== Sys2Proof/Machine/BigStep.lean ====
section
/-! DEFINITION. The machine once more in the big-step form of R89, without positions, waits or agents: what a micro-program makes of
the sequencer's rows, and one tick of the polling loop. -/

namespace Sys2Proof.Machine

/-- The sequencer-visible state of R89: `(prev, cur, exp, phase, out)`. -/
structure Rows where
  prev  : Level
  cur   : Level
  exp   : Count
  phase : Phase
  out   : Outputs
deriving DecidableEq, Repr

/-- The sequencer-visible rows of a state (R89). -/
def State.rows (s : State) : Rows :=
  { prev := s.prev, cur := s.cur, exp := s.exp, phase := s.phase, out := s.out }

/-- What one micro-operation makes of the rows (R65, R73, R74, R95, R96, R98); the counter and the time are outside them. -/
def microRows (i : Instr) (r : Rows) : Rows :=
  match i with
  | .tgl lines => { r with out := r.out.toggle lines }
  | .set level lines => { r with out := r.out.drive level lines }
  | .rstexp => { r with exp := 0 }
  | .incexp => { r with exp := r.exp + 1 }
  | .latchprev => { r with prev := r.cur }
  | .setphase p => { r with phase := p }
  | _ => r

/-- The lines a micro-operation may change. -/
def microLines : Instr → LineSet
  | .tgl lines => lines
  | .set _ lines => lines
  | _ => {}

/-- The time a micro-operation takes: only `DLY` takes any (R7, R97). -/
def microTime : Instr → Nat
  | .dly n => duration n
  | _ => 0

/-- The trace event a micro-operation emits at time `t`, if a line changes (R95, R96). -/
def microEvents (i : Instr) (t : Nat) (r : Rows) : List TraceEvent :=
  match lineChanges (microLines i) r.out (microRows i r).out with
  | [] => []
  | c :: cs => [{ time := t, changes := c :: cs }]

/-- The rows after a list of micro-operation words (R89, R99). -/
def runRows : List MicroWord → Rows → Rows
  | [], r => r
  | u :: us, r =>
    match decodeMicro u with
    | .ok i => runRows us (microRows i r)
    | .error _ => r

/-- The time a list of micro-operation words takes (R99, R146). -/
def runTime : List MicroWord → Nat
  | [] => 0
  | u :: us =>
    match decodeMicro u with
    | .ok i => microTime i + runTime us
    | .error _ => 0

/-- The timed output changes of a list of micro-operation words begun at time `t`, oldest first (R89). -/
def runEvents : List MicroWord → Nat → Rows → List TraceEvent
  | [], _, _ => []
  | u :: us, t, r =>
    match decodeMicro u with
    | .ok i => microEvents i t r ++ runEvents us (t + microTime i) (microRows i r)
    | .error _ => []

/-- `Run(a)` of R89: the output micro-operations of an action applied to the output latch alone. -/
def runOutputs : List MicroWord → Outputs → Outputs
  | [], o => o
  | u :: us, o =>
    match decodeMicro u with
    | .ok (.tgl lines) => runOutputs us (o.toggle lines)
    | .ok (.set level lines) => runOutputs us (o.drive level lines)
    | .ok _ => runOutputs us o
    | .error _ => o

/-- What one polling iteration of the big-step form gives: the rows, the output changes and the time its action takes. -/
structure TickResult where
  action : Action
  rows   : Rows
  events : List TraceEvent
  time   : Nat
deriving DecidableEq, Repr

/-- `Tick(s, f, c)` of R89 begun at time `t`; no result where `Dispatch` has none (R81, R86). -/
def bigTick (r : Rows) (f : Level) (c : Count) (t : Nat) : Option TickResult :=
  let r := { r with cur := f }
  match dispatch r.phase (classify r.prev r.cur) (pendOf c r.exp) with
  | none => none
  | some .nop => some { action := .nop, rows := r, events := [], time := 0 }
  | some .start =>
    some
      { action := .start
        rows := { r with out := runOutputs startWords r.out, prev := r.cur, phase := .active }
        events := runEvents startWords t r
        time := runTime startWords }
  | some .byte =>
    some
      { action := .byte
        rows := { r with out := runOutputs byteWords r.out, exp := r.exp + 1 }
        events := runEvents byteWords t r
        time := runTime byteWords }
  | some .endAction =>
    some
      { action := .endAction
        rows := { r with out := runOutputs endWords r.out, exp := 0, prev := r.cur, phase := .idle }
        events := runEvents endWords t r
        time := runTime endWords }

/-- A run of the big-step form over the samples and counter values of its poll points: the actions taken and the rows at the end. -/
def bigRun : Rows → List (Level × Count) → Option (List Action × Rows)
  | r, [] => some ([], r)
  | r, (f, c) :: ins =>
    match bigTick r f c 0 with
    | none => none
    | some x =>
      match bigRun x.rows ins with
      | none => none
      | some (acts, last) => some (x.action :: acts, last)

end Sys2Proof.Machine
end

