-- ==== Sys2Proof/Machine/Scripts.lean ====
section
/-! DEFINITION. Stimulus scripts, the test programs of this block (R57): their lines, the order they are taken in, the launch they are run
with, and the encoding of a run. -/

namespace Sys2Proof.Machine

/-- A line of a script (R57). -/
inductive ScriptLine where
  /-- `@t LINE=level`. -/
  | drive (time : Nat) (line : InLine) (level : Level)
  /-- The pseudo-stimulus `@t PULSE w`. -/
  | pulse (time width : Nat)
deriving DecidableEq, Repr

/-- What a script is run with (R57): the levels of the two input lines at reset, and `T_ITER` stated for the iterations, the last value
standing for all later ones (log 3). -/
structure Launch where
  framing   : Level
  preq      : Level
  overheads : List Nat
  script    : List ScriptLine
deriving DecidableEq, Repr

/-- The environment drives a line at a time, before a sequencer step at that time: the tie rule of R57. -/
def driveAt (time : Nat) (line : InLine) (level : Level) : Stimulus :=
  { time := time, skip := 0, line := line, level := level }

/-- The stimuli of a line; `@t PULSE w` is `@t PREQ=LOW` and `@(t+w) PREQ=HIGH` (R57). -/
def ScriptLine.stimuli : ScriptLine → List Stimulus
  | .drive time line level => [driveAt time line level]
  | .pulse time width => [driveAt time .preq .low, driveAt (time + width) .preq .high]

/-- Put a stimulus behind all that are not later than it. -/
def insertStimulus (e : Stimulus) : List Stimulus → List Stimulus
  | [] => [e]
  | x :: xs => if e.time < x.time then e :: x :: xs else x :: insertStimulus e xs

/-- Stimuli in the order of their times, those of one time in the order they were listed in. The order at one time is a DESIGN CHOICE,
safe: log 21. -/
def orderStimuli (es : List Stimulus) : List Stimulus := es.foldl (fun ordered e => insertStimulus e ordered) []

/-- The environment's steps of a script: each is taken at its own time, however the lines are listed and whatever a pulse that is
still LOW has left to come (R57). -/
def scriptStimuli (script : List ScriptLine) : List Stimulus := orderStimuli (script.flatMap ScriptLine.stimuli)

/-- A state with a script to come and with the overheads of its iterations stated (R57, R93). -/
def State.withScript (s : State) (script : List ScriptLine) (overheads : List Nat) : State :=
  (s.setEnv (scriptStimuli script)).setOverheads overheads

/-- The state a script's run starts in (R57). -/
def Launch.start (l : Launch) : State := (State.launch l.framing l.preq).withScript l.script l.overheads

/-- The dispatch word the next step forms, if it is a poll that selects an action other than NOP (R57). -/
def stepEncoding (s : State) : List DispatchWord :=
  if nextTurn s = .poll then
    let d := dispatchWord (sampled s)
    match selectedAction (decodeDispatch d) with
    | none => []
    | some .nop => []
    | some _ => [d]
  else []

/-- The encoding of a run of `k` steps: the dispatch words of its iterations that are not NOP, in order (R57). -/
def runEncoding : Nat → State → List DispatchWord
  | 0, _ => []
  | k + 1, s =>
    stepEncoding s ++
      match step s with
      | .next t => runEncoding k t
      | .fault _ => []
      | .refused _ => []

end Sys2Proof.Machine
end

