-- ==== Sys2Proof/Safety.lean ====
section
/-! DEFINITION. What holds of every state a run reaches: the invariants the statements use, each over one state. -/

namespace Sys2Proof.Machine

/-- The row Idle of R22 (its clause on `pcnt` apart, which is about the past). -/
def IdleRow (r : Rows) : Prop :=
  r.phase = .idle ∧ r.prev = .high ∧ r.exp = 0 ∧ r.out = Outputs.initial

/-- The row Active of R22 (its clauses on the past apart): a shadow count that is not 0 means a burst has run, and `SYNC` is then
LOW. -/
def ActiveRow (r : Rows) : Prop :=
  r.phase = .active ∧ r.prev = .low ∧ r.out.sioClk = .low ∧ r.out.spiClk = .low ∧ r.out.flow = .low ∧
    (r.exp ≠ 0 → r.out.sync = .low)

/-- The rows with which an action is entered (R82, R83, R84, R142). No step enters a placed word. -/
def EntryRow (act : Program) (r : Rows) : Prop :=
  match act with
  | .start => IdleRow r ∧ r.cur = .low
  | .byte => ActiveRow r
  | .endAction => ActiveRow r ∧ r.cur = .high
  | .single _ => False

/-- A wait inside an action is the rest of the `DLY` just executed (R18). -/
def WaitOfDelay (act : Program) (upc dly : Nat) : Prop :=
  dly ≠ 0 → ∃ k u n, upc = k + 1 ∧ (programWords act)[k]? = some u ∧ decodeMicro u = .ok (.dly n) ∧ dly ≤ duration n

/-- The session invariant: R22 at the poll point, and inside an action the rows that its entry and the micro-operations executed
so far give. It is R22 carried through the actions. -/
def SessionInv (s : State) : Prop :=
  match s.seq with
  | .poll => IdleRow s.rows ∨ ActiveRow s.rows
  | .run act upc =>
    upc ≤ (programWords act).length ∧ WaitOfDelay act upc s.dly ∧
      ∃ entry, EntryRow act entry ∧ s.rows = runRows ((programWords act).take upc) entry

/-- The counting hardware has seen the present level of `PREQ`, so no fall is missed or counted twice (R39, R68). -/
def CounterSeesLine (s : State) : Prop := s.preqLast = s.preq

/-- Every stimulus still to come lies ahead, in the order of the times, and is to be taken before the sequencer's step at its time, as the
tie rule of R57 says. -/
def ScriptOnTime (s : State) : Prop :=
  s.env.Pairwise (fun a b => a.time ≤ b.time) ∧ ∀ e ∈ s.env, s.now ≤ e.time ∧ e.skip = 0

/-- No condition value survives an iteration (R20). -/
def NoConditionHeld (s : State) : Prop := s.edge = none

/-- Put one line of the latch at a level. -/
def putLine (o : Outputs) (c : OutLine × Level) : Outputs :=
  match c.1 with
  | .sioClk => { o with sioClk := c.2 }
  | .spiClk => { o with spiClk := c.2 }
  | .sync => { o with sync := c.2 }
  | .flow => { o with flow := c.2 }

/-- The output levels an observer works out from a trace, newest event first, knowing the initial levels (R7, R16). -/
def replay : List TraceEvent → Outputs
  | [] => Outputs.initial
  | e :: es => e.changes.foldl putLine (replay es)

/-- The observation is faithful: the trace explains the output levels, its events are in the order of time and none is later than
now, and every event is a change (R7, R38). -/
def TraceFaithful (s : State) : Prop :=
  replay s.log = s.out ∧ s.log.Pairwise (fun a b => b.time ≤ a.time) ∧
    ∀ e ∈ s.log, e.time ≤ s.now ∧ e.changes ≠ []

/-- The block that was reset with the framing line LOW: it polls in Idle and no output has moved (R131). -/
def StuckInIdle (s : State) : Prop :=
  s.phase = .idle ∧ s.prev = .low ∧ s.exp = 0 ∧ s.seq = .poll ∧ s.out = Outputs.initial ∧ s.log = []

/-- Where a word stands in the three micro-programs: at these places and at no other (R42, R51). -/
def OccursOnlyAt (u : MicroWord) (places : List (Program × Nat)) : Prop :=
  ∀ act, act = .start ∨ act = .byte ∨ act = .endAction → ∀ k, (programWords act)[k]? = some u ↔ (act, k) ∈ places

end Sys2Proof.Machine
end

