-- ==== Sys2Proof/Certificates/Slice0/Obligations.lean ====
section
/-! DEFINITION. The statements for the provers. R<n> are the numbered rules of spec/; a statement whose docstring names a log entry
says something the model chose. -/

open Sys2Proof Sys2Proof.Machine

/-! ### Encodings -/

/-- No bit of an encoding is dropped: decoding the word of a well-formed instruction gives the instruction back (R47, R48, R51). -/
def Obligations.DecodeOfEncodeIsIdentity : Prop :=
  ∀ i : Instr, i.wf = true → decode (encode i) = .ok i

/-- Every word that decodes is the word of the well-formed instruction it decodes to, so each word has one meaning (R47, R49, R51). -/
def Obligations.EncodeOfDecodeIsIdentity : Prop :=
  ∀ (w : TableWord) (i : Instr), decode w = .ok i → i.wf = true ∧ encode i = w

/-- R47 with R61 to R64: the four edge words, each the class of its two levels, and none refused. -/
def Obligations.EdgeWordDecodesToItsClass : Prop :=
  decode (.edge 0b10) = .ok .edgeFall ∧ decode (.edge 0b01) = .ok .edgeRise ∧
    decode (.edge 0b00) = .ok .edgeNoneLow ∧ decode (.edge 0b11) = .ok .edgeNoneHigh ∧
    (∀ prev cur : Level, (edgeWordOf prev cur).getLsbD 1 = prev.bit ∧ (edgeWordOf prev cur).getLsbD 0 = cur.bit)

/-- R49: the dispatch map as match and mask pairs, for each of the 32 words. -/
def Obligations.DispatchMapByMatchAndMask : Prop :=
  ∀ d : DispatchWord,
    (selectedAction (decodeDispatch d) = some .start ↔ d &&& 0x1E = 0x04) ∧
      (selectedAction (decodeDispatch d) = some .byte ↔ d &&& 0x19 = 0x09) ∧
      (selectedAction (decodeDispatch d) = some .endAction ↔ d &&& 0x1F = 0x0A) ∧
      (selectedAction (decodeDispatch d) = some .nop ↔
        d &&& 0x1C = 0x00 ∨ d &&& 0x1E = 0x06 ∨ d &&& 0x1F = 0x08 ∨ d &&& 0x1D = 0x0C) ∧
      (selectedAction (decodeDispatch d) = none ↔ d &&& 0x10 = 0x10)

/-- R81: the action a dispatch word selects is `Dispatch(phase, edge, pend)`: in Idle only the edge counts, in Active the test of
`pend` comes first, and Draining has none. -/
def Obligations.DispatchSelectsByPhaseEdgeAndPending : Prop :=
  ∀ (phase : Phase) (prev cur : Level) (pend : Bool),
    selectedAction (decodeDispatch (dispatchWordOf phase prev cur pend)) =
      match phase with
      | .idle => if prev = .high ∧ cur = .low then some .start else some .nop
      | .active =>
        if pend = true then some .byte
        else if prev = .low ∧ cur = .high then some .endAction
        else some .nop
      | .draining => none
      | .reserved => none

/-- R53: exactly the malformed micro-operation words are refused, none of them is in a micro-program, and a well-formed word that is
in none has its rule's meaning. -/
def Obligations.MalformedMicroWordsAreRefused : Prop :=
  (∀ u : MicroWord, (∃ e, decodeMicro u = .error e) ↔
      (u &&& 0xEF = 0x00 ∨ u &&& 0xEF = 0x20 ∨ u &&& 0xF0 = 0x10 ∨ u = 0x40 ∨ (u &&& 0xE0 = 0x60 ∧ u ≠ 0x60) ∨
        (u &&& 0xE0 = 0x80 ∧ u ≠ 0x80) ∨ (u &&& 0xE0 = 0xA0 ∧ u ≠ 0xA0) ∨ (u &&& 0xE0 = 0xC0 ∧ u ≠ 0xC0) ∨
        (u &&& 0xE0 = 0xE0 ∧ u &&& 0x1C ≠ 0x00) ∨ (u &&& 0xE0 = 0xE0 ∧ u &&& 0x03 = 0x03))) ∧
    (∀ act, act = .start ∨ act = .byte ∨ act = .endAction →
      ∀ u ∈ programWords act, ∃ i, decodeMicro u = .ok i) ∧
    decodeMicro 0x31 = .ok (.set .high { sioClk := true })

/-- The fifteen words of R51 that occur in the micro-programs and a dispatch word of each action of R49, written out from the spec's
encodings, decode to the instructions they stand for. -/
def Obligations.WrittenOutWordsDecode : Prop :=
  decodeMicro 0b00000001 = .ok (.tgl { sioClk := true }) ∧
    decodeMicro 0b00000011 = .ok (.tgl { sioClk := true, spiClk := true }) ∧
    decodeMicro 0b00001000 = .ok (.tgl { flow := true }) ∧
    decodeMicro 0b00100100 = .ok (.set .low { sync := true }) ∧
    decodeMicro 0b00110100 = .ok (.set .high { sync := true }) ∧
    decodeMicro 0b00111000 = .ok (.set .high { flow := true }) ∧
    decodeMicro 0b01000001 = .ok (.dly 1) ∧ decodeMicro 0b01000010 = .ok (.dly 2) ∧
    decodeMicro 0b01100000 = .ok .rstexp ∧ decodeMicro 0b10000000 = .ok .rstcnt ∧
    decodeMicro 0b10100000 = .ok .incexp ∧ decodeMicro 0b11000000 = .ok .latchprev ∧
    decodeMicro 0b11100000 = .ok (.setphase .idle) ∧ decodeMicro 0b11100001 = .ok (.setphase .active) ∧
    decodeMicro 0b11100010 = .ok (.setphase .draining) ∧
    decodeDispatch 0b00101 = .start true ∧ decodeDispatch 0b01011 = .byte .low .high ∧
    decodeDispatch 0b01010 = .endAction ∧ decodeDispatch 0b00111 = .nopIdleHigh true

/-- The three micro-programs word for word, with their lengths and durations (R99, R102, R104, R106, R146). -/
def Obligations.MicroProgramsAreTheWrittenLists : Prop :=
  programWords .start = [0x01, 0x42, 0x01, 0x42, 0x01, 0x42, 0x01, 0x42, 0x08, 0xC0, 0xE1] ∧
    programWords .byte = (List.replicate 8 [0x03, 0x41, 0x24, 0x41, 0x03, 0x42]).flatten ++ [0xA0] ∧
    programWords .endAction =
      [0xE2] ++ (List.replicate 16 [0x01, 0x42, 0x01, 0x42]).flatten ++ [0x34, 0x38, 0x60, 0x80, 0xC0, 0xE0] ∧
    (programWords .start).length = 11 ∧ (programWords .byte).length = 49 ∧ (programWords .endAction).length = 71 ∧
    runTime (programWords .start) = 200 ∧ runTime (programWords .byte) = 800 ∧ runTime (programWords .endAction) = 1600

/-! ### Reset -/

/-- R23: the state after reset, for every level of the two input lines at that moment. -/
def Obligations.LaunchHoldsTheResetValues : Prop :=
  ∀ f p : Level,
    (State.launch f p).prev = f ∧ (State.launch f p).cur = f ∧ (State.launch f p).exp = 0 ∧
      (State.launch f p).pcnt = 0 ∧ (State.launch f p).phase = .idle ∧ (State.launch f p).out.sioClk = .low ∧
      (State.launch f p).out.spiClk = .low ∧ (State.launch f p).out.sync = .high ∧
      (State.launch f p).out.flow = .high ∧ (State.launch f p).seq = .poll ∧ (State.launch f p).dly = 0 ∧
      (State.launch f p).preqLast = p

/-- The invariants hold at reset, and at every launch with the framing line HIGH. That `State.reset` is such a launch is the
model's choice (log 2). -/
def Obligations.ResetMeetsTheInvariants : Prop :=
  SessionInv State.reset ∧ CounterSeesLine State.reset ∧ NoConditionHeld State.reset ∧ TraceFaithful State.reset ∧
    ∀ p : Level, SessionInv (State.launch .high p) ∧ CounterSeesLine (State.launch .high p) ∧
      NoConditionHeld (State.launch .high p) ∧ TraceFaithful (State.launch .high p)

/-! ### Invariants of every step -/

/-- R22 carried through the actions: every step keeps the session invariant. -/
def Obligations.StepKeepsTheSessionInvariant : Prop :=
  ∀ s t : State, SessionInv s → step s = .next t → SessionInv t

/-- Every step keeps the trace a faithful record of the outputs (R7, R38, R95, R96). -/
def Obligations.StepKeepsTheTraceFaithful : Prop :=
  ∀ s t : State, TraceFaithful s → step s = .next t → TraceFaithful t

/-- Every step keeps the counter's input stage at the line's level and leaves no condition value behind (R20, R39, R68). -/
def Obligations.StepKeepsTheCounterAtTheLine : Prop :=
  ∀ s t : State, CounterSeesLine s → NoConditionHeld s → step s = .next t → CounterSeesLine t ∧ NoConditionHeld t

/-- R91, R113: from a state that meets the session invariant the block never stops, whatever the environment does: every number of
steps gives a state, which meets the invariant again. -/
def Obligations.TheLoopNeverStops : Prop :=
  ∀ (s : State), SessionInv s → ∀ k, ∃ t : State, Sys2Proof.core.run k s = .next t ∧ SessionInv t

/-- R91: from a state that meets the session invariant a poll point is reached again, whatever the environment does, after at most
`32 * W` time-units and the overhead that still is to be spent. -/
def Obligations.PollPointIsReachedWithinTheLongestAction : Prop :=
  ∀ s : State, SessionInv s → ∃ (k : Nat) (t : State), Sys2Proof.core.run k s = .next t ∧ nextTurn t = .poll ∧
    t.now ≤ s.now + 32 * Config.halfPulse + (if s.seq = .poll then s.dly else iterationOverhead s)

/-- R131: reset with the framing line LOW, the block polls in Idle for ever, whatever the environment does: no step is refused, no
output ever moves. -/
def Obligations.ResetWithFramingLowNeverLeavesIdle : Prop :=
  ∀ (p : Level) (script : List Stimulus) (overheads : List Nat) (k : Nat),
    ∃ t : State, Sys2Proof.core.run k { State.launch .low p with env := script, overheads := overheads } = .next t ∧ StuckInIdle t

/-! ### The edge detector -/

/-- R61 to R64: each edge instruction completes in every state; it reports its class to the dispatch and writes no state. That the
class stands in a field until then is the model's choice (log 8). -/
def Obligations.EdgeInstructionsReportTheirClass : Prop :=
  ∀ s : State,
    exec .edgeFall s = .next { s with edge := some .falling } ∧
      exec .edgeRise s = .next { s with edge := some .rising } ∧
      exec .edgeNoneLow s = .next { s with edge := some .noEdge } ∧
      exec .edgeNoneHigh s = .next { s with edge := some .noEdge }

/-- R65: LATCHPREV completes in every state, copies the sample to `prev` and changes nothing else; it is the only writer of `prev`
and stands last but one in START and in END. -/
def Obligations.LatchprevCopiesTheSample : Prop :=
  decodeMicro 0xC0 = .ok .latchprev ∧ OccursOnlyAt 0xC0 [(.start, 9), (.endAction, 69)] ∧
    (∀ s : State, exec .latchprev s = .next { s with prev := s.cur }) ∧
    (∀ s t : State, step s = .next t → t.prev ≠ s.prev → nextTurn s = .micro .latchprev ∧ t.prev = s.cur)

/-! ### The pulse counter -/

/-- R68: a stimulus on `PREQ` is taken whatever the phase, the position and the wait: a fall adds one modulo 256, and nothing but the
line, its last-seen level and the count changes. -/
def Obligations.FallingEdgeOfPreqIsCounted : Prop :=
  ∀ (s : State) (e : Stimulus) (rest : List Stimulus),
    dueStimulus s = some (e, rest) → s.phase ≠ .reserved → e.line = .preq →
      ∃ t, step s = .next t ∧
        t.pcnt.toNat = (if s.preqLast = .high ∧ e.level = .low then (s.pcnt.toNat + 1) % 256 else s.pcnt.toNat) ∧
        t = { s with env := rest, pcnt := t.pcnt, preqLast := e.level, preq := e.level }

/-- R6, R39, R60: a stimulus on `FRAMING` changes the line and nothing of the block. -/
def Obligations.StimulusOnFramingChangesTheLineAlone : Prop :=
  ∀ (s : State) (e : Stimulus) (rest : List Stimulus),
    dueStimulus s = some (e, rest) → s.phase ≠ .reserved → e.line = .framing →
      step s = .next { s with env := rest, framing := e.level }

/-- R74: RSTEXP completes in every state, zeroes `exp` and nothing else, and stands once, in END, immediately before RSTCNT. -/
def Obligations.RstexpZeroesTheShadowCount : Prop :=
  decodeMicro 0x60 = .ok .rstexp ∧ OccursOnlyAt 0x60 [(.endAction, 67)] ∧ (programWords .endAction)[68]? = some 0x80 ∧
    ∀ s : State, exec .rstexp s = .next { s with exp := 0 }

/-- R71: RSTCNT completes in every state, zeroes `pcnt` and leaves `preq_last` and all else; it stands once, in END, immediately after
RSTEXP, and nothing else resets the counter: any other step leaves it or adds one. -/
def Obligations.RstcntZeroesTheCounter : Prop :=
  decodeMicro 0x80 = .ok .rstcnt ∧ OccursOnlyAt 0x80 [(.endAction, 68)] ∧ (programWords .endAction)[67]? = some 0x60 ∧
    (∀ s : State, exec .rstcnt s = .next { s with pcnt := 0 }) ∧
    (∀ s t : State, step s = .next t → nextTurn s ≠ .micro .rstcnt → t.pcnt = s.pcnt ∨ t.pcnt = s.pcnt + 1)

/-- R73: INCEXP completes in every state, adds one modulo 256 to `exp` and changes nothing else, and stands once, last in BYTE. -/
def Obligations.IncexpAddsOneModulo256 : Prop :=
  decodeMicro 0xA0 = .ok .incexp ∧ OccursOnlyAt 0xA0 [(.byte, 48)] ∧
    ∀ s : State, ∃ t, exec .incexp s = .next t ∧ t.exp.toNat = (s.exp.toNat + 1) % 256 ∧ t = { s with exp := t.exp }

/-- R41: a fall of `PREQ` at the instant of RSTCNT may be ordered before it, and is lost, or after it, and survives; both are runs of
the model (log 1). -/
def Obligations.FallAtTheCounterResetHasBothOrders : Prop :=
  ∀ s : State, s.seq = .run .endAction 68 → s.dly = 0 → s.phase ≠ .reserved → s.preqLast = .high →
    (∃ t : State, Sys2Proof.core.run 2 { s with env := [⟨s.now, 0, .preq, .low⟩] } = .next t ∧ t.pcnt = 0 ∧ t.now = s.now) ∧
      (∃ t : State, Sys2Proof.core.run 2 { s with env := [⟨s.now, 1, .preq, .low⟩] } = .next t ∧ t.pcnt = 1 ∧ t.now = s.now)

/-! ### Output micro-operations -/

/-- R95: TGL of a non-empty set completes in every state; every line of the set flips at one instant and is emitted with its new level, no other line and
nothing else changes. -/
def Obligations.ToggleFlipsExactlyTheNamedLines : Prop :=
  (∀ m : BitVec 4, m ≠ 0 → decodeMicro (0b0000#4 ++ m) = .ok (.tgl (LineSet.ofMask m))) ∧
    ∀ (lines : LineSet) (s : State), lines.nonEmpty = true → ∃ t, exec (.tgl lines) s = .next t ∧
      (∀ l, t.out.get l = if lines.has l then (s.out.get l).not else s.out.get l) ∧
      t.log = { time := s.now, changes := (OutLine.all.filter lines.has).map fun l => (l, (s.out.get l).not) } :: s.log ∧
      t = { s with out := t.out, log := t.log }

/-- R96: SET of a non-empty set completes in every state; every line of the set takes the level at one instant, exactly the lines that change are
emitted, and nothing else changes. -/
def Obligations.SetDrivesExactlyTheNamedLines : Prop :=
  (∀ (v : Level) (m : BitVec 4), m ≠ 0 →
      decodeMicro (0b001#3 ++ BitVec.ofBool v.bit ++ m) = .ok (.set v (LineSet.ofMask m))) ∧
    ∀ (v : Level) (lines : LineSet) (s : State), lines.nonEmpty = true → ∃ t, exec (.set v lines) s = .next t ∧
      (∀ l, t.out.get l = if lines.has l then v else s.out.get l) ∧
      ((∀ l, lines.has l = true → s.out.get l = v) → t.log = s.log) ∧
      ((∃ l, lines.has l = true ∧ s.out.get l ≠ v) →
        t.log =
          { time := s.now
            changes := (OutLine.all.filter fun l => lines.has l && decide (s.out.get l ≠ v)).map fun l => (l, v) } ::
            s.log) ∧
      t = { s with out := t.out, log := t.log }

/-- R97: DLY, `n` in 1 to 31, completes in every state; the sequencer then takes no other step for exactly `n * W2` = `n * 25`
time-units, at every step of which its rows, its position and the outputs hold, whatever the environment does. -/
def Obligations.DelayBlocksForExactlyItsDuration : Prop :=
  (∀ n, 1 ≤ n → n ≤ 31 → decodeMicro (BitVec.ofNat 8 (0x40 + n)) = .ok (.dly n)) ∧
    ∀ (n : Nat) (s : State), 1 ≤ n → n ≤ 31 → exec (.dly n) s = .next { s with dly := n * 25 } ∧
      (s.phase ≠ .reserved → ∃ (k : Nat) (u : State), Sys2Proof.core.run k { s with dly := n * 25 } = .next u ∧ u.dly = 0 ∧
        u.now = s.now + n * 25 ∧
        ∀ j, j ≤ k → ∃ v : State, Sys2Proof.core.run j { s with dly := n * 25 } = .next v ∧
          v.now + v.dly = s.now + n * 25 ∧ v.rows = s.rows ∧ v.seq = s.seq ∧ v.log = s.log)

/-- R98: SETPHASE of each of its three phases completes in every state, writes `phase` and nothing else, and its three words stand where
R98 says. -/
def Obligations.SetphaseWritesThePhaseAlone : Prop :=
  decodeMicro 0xE0 = .ok (.setphase .idle) ∧ decodeMicro 0xE1 = .ok (.setphase .active) ∧
    decodeMicro 0xE2 = .ok (.setphase .draining) ∧ OccursOnlyAt 0xE0 [(.endAction, 70)] ∧
    OccursOnlyAt 0xE1 [(.start, 10)] ∧ OccursOnlyAt 0xE2 [(.endAction, 0)] ∧
    ∀ (p : Phase) (s : State), p ≠ .reserved → exec (.setphase p) s = .next { s with phase := p }

/-! ### The dispatch instructions -/

/-- R82, R90, R102: START completes in every state by entering its micro-program and changing nothing else; from a poll point that
program then runs to its end whatever the environment does: 200 time-units, `SIO_CLK` toggled at 0, 50, 100 and 150, `FLOW` at 200,
`prev` latched, phase Active. -/
def Obligations.StartEntersAndRunsSessionStart : Prop :=
  ∀ (pend : Bool) (s : State),
    exec (.start pend) s = .next { s with seq := .run .start 0, edge := none } ∧
      (s.dly = 0 → s.phase ≠ .reserved →
        ∃ (k : Nat) (u : State), Sys2Proof.core.run k { s with seq := .run .start 0, edge := none } = .next u ∧
          u.seq = .run .start 11 ∧ u.dly = 0 ∧ u.now = s.now + 200 ∧ u.prev = s.cur ∧ u.cur = s.cur ∧ u.exp = s.exp ∧
          u.phase = .active ∧ u.out = { s.out with flow := s.out.flow.not } ∧
          u.trace = s.trace ++
            [⟨s.now, [(.sioClk, s.out.sioClk.not)]⟩, ⟨s.now + 50, [(.sioClk, s.out.sioClk)]⟩,
              ⟨s.now + 100, [(.sioClk, s.out.sioClk.not)]⟩, ⟨s.now + 150, [(.sioClk, s.out.sioClk)]⟩,
              ⟨s.now + 200, [(.flow, s.out.flow.not)]⟩] ∧
          (s.env = [] → u.pcnt = s.pcnt))

/-- R83, R90, R104: BYTE completes in every state by entering its micro-program and changing nothing else; from a poll point that program
then runs to its end whatever the environment does: eight slots of 100 time-units, both clocks toggled together at 0 and 50 of each,
`SYNC` lowered at 25 (a change only if it was HIGH), `exp` one more, all else as it was. -/
def Obligations.ByteEntersAndRunsByteClock : Prop :=
  ∀ (prev cur : Level) (s : State),
    exec (.byte prev cur) s = .next { s with seq := .run .byte 0, edge := none } ∧
      (s.dly = 0 → s.phase ≠ .reserved →
        ∃ (k : Nat) (u : State), Sys2Proof.core.run k { s with seq := .run .byte 0, edge := none } = .next u ∧
          u.seq = .run .byte 49 ∧ u.dly = 0 ∧ u.now = s.now + 800 ∧ u.prev = s.prev ∧ u.cur = s.cur ∧
          u.exp = s.exp + 1 ∧ u.phase = s.phase ∧ u.out = { s.out with sync := .low } ∧
          u.trace = s.trace ++ (List.range 8).flatMap (fun slot =>
            [⟨s.now + 100 * slot, [(.sioClk, s.out.sioClk.not), (.spiClk, s.out.spiClk.not)]⟩] ++
              (if slot = 0 ∧ s.out.sync = .high then [⟨s.now + 25, [(.sync, .low)]⟩] else []) ++
              [⟨s.now + 100 * slot + 50, [(.sioClk, s.out.sioClk), (.spiClk, s.out.spiClk)]⟩]) ∧
          (s.env = [] → u.pcnt = s.pcnt))

/-- R84, R90, R106: END completes in every state by entering its micro-program and changing nothing else; from a poll point that program
then runs to its end whatever the environment does: sixteen cycles on `SIO_CLK` alone, at 1600 `SYNC` and then `FLOW` HIGH, `exp`
zero, `prev` latched, phase Idle; the counter is zero if no pulse came. -/
def Obligations.EndEntersAndRunsSessionEnd : Prop :=
  ∀ s : State,
    exec .endAction s = .next { s with seq := .run .endAction 0, edge := none } ∧
      (s.dly = 0 → s.phase ≠ .reserved →
        ∃ (k : Nat) (u : State), Sys2Proof.core.run k { s with seq := .run .endAction 0, edge := none } = .next u ∧
          u.seq = .run .endAction 71 ∧ u.dly = 0 ∧ u.now = s.now + 1600 ∧ u.prev = s.cur ∧ u.cur = s.cur ∧ u.exp = 0 ∧
          u.phase = .idle ∧ u.out = { s.out with sync := .high, flow := .high } ∧
          u.trace = s.trace ++ (List.range 16).flatMap (fun cycle =>
            [⟨s.now + 100 * cycle, [(.sioClk, s.out.sioClk.not)]⟩,
              ⟨s.now + 100 * cycle + 50, [(.sioClk, s.out.sioClk)]⟩]) ++
            (if s.out.sync = .low then [⟨s.now + 1600, [(.sync, .high)]⟩] else []) ++
            (if s.out.flow = .low then [⟨s.now + 1600, [(.flow, .high)]⟩] else []) ∧
          (s.env = [] → u.pcnt = 0))

/-- R85, R93, R147: each NOP completes in every state: the sequencer is back at the poll point after a wait of the iteration's overhead,
which is above 0; no row, no count, no output and no input changes. How the overhead is stated or left free is the model's choice
(log 3, log 4). -/
def Obligations.NopOnlySpendsTheIterationOverhead : Prop :=
  ∀ (i : Instr), selectedAction i = some .nop → ∀ s : State, ∃ t, exec i s = .next t ∧
    t.seq = .poll ∧ 1 ≤ t.dly ∧ t.dly = max 1 (iterationOverhead s) ∧ t.edge = none ∧
    t = { s with seq := .poll, dly := t.dly, overheads := t.overheads, iter := t.iter, edge := none }

/-- R50: a dispatch word with `d[4] = 1` is refused by name in every state, and no other dispatch word is; `0x00` to `0x03` and `0x0C` to
`0x0F` have the action of R49. -/
def Obligations.ReservedDispatchWordsAreRefused : Prop :=
  (∀ (upper : Bool) (prev cur : Level) (pend : Bool) (s : State), exec (.reserved upper prev cur pend) s =
      .refused (.reservedDispatchWord (dispatchWordOf (if upper then .reserved else .draining) prev cur pend))) ∧
    (∀ (d : DispatchWord) (s : State), (∃ t, exec (decodeDispatch d) s = .next t) ↔ d.getLsbD 4 = false) ∧
    (∀ d : DispatchWord, d ≤ 0x03 → selectedAction (decodeDispatch d) = some .nop) ∧
    (∀ d : DispatchWord, 0x0C ≤ d → d ≤ 0x0F →
      selectedAction (decodeDispatch d) = if d.getLsbD 0 then some .byte else some .nop)

/-! ### The step -/

/-- R80, R90 (1): at a poll point with no stimulus due, a step samples the framing line, reports the class of the two snapshots and runs
the instruction its dispatch word decodes to, all at one instant. -/
def Obligations.StepAtThePollPointRunsTheDispatchWord : Prop :=
  ∀ s : State, dueStimulus s = none → s.dly = 0 → s.seq = .poll →
    exec (decodeEdge (edgeWordOf s.prev s.framing)) (sampled s) =
        .next { sampled s with edge := some (classify s.prev s.framing) } ∧
      step s =
        exec (decodeDispatch (dispatchWordOf s.phase s.prev s.framing (s.pcnt != s.exp)))
          { sampled s with edge := some (classify s.prev s.framing) } ∧
      sampled s = { s with cur := s.framing, env := (passStimulus s).env }

/-- R90 (2), R99: inside a micro-program, with no stimulus due and no wait running, a step runs the instruction that the word at the
position decodes to, with the position one further. -/
def Obligations.StepRunsTheFetchedMicroOperation : Prop :=
  ∀ (s : State) (act : Program) (upc : Nat) (u : MicroWord) (i : Instr),
    dueStimulus s = none → s.dly = 0 → s.phase ≠ .reserved → s.seq = .run act upc →
      (programWords act)[upc]? = some u → decodeMicro u = .ok i →
      step s = exec i { s with seq := .run act (upc + 1), env := (passStimulus s).env } ∧
        ∃ t, step s = .next t ∧ t.seq = .run act (upc + 1)

/-- R18, R90 (3): with a wait running and no stimulus due, a step lets one time-unit pass and does nothing else. -/
def Obligations.StepInAWaitPassesOneTimeUnit : Prop :=
  ∀ s : State, dueStimulus s = none → s.dly ≠ 0 → s.phase ≠ .reserved →
    step s = .next { s with dly := s.dly - 1, now := s.now + 1, env := (passStimulus s).env }

/-- R90 (4), R93: at the end of a micro-program a step goes back to the poll point, which it reaches after the iteration's overhead. That
the overhead is a wait at the poll point is the model's choice (log 4). -/
def Obligations.StepAtTheEndOfAProgramReturnsToThePollPoint : Prop :=
  ∀ (s : State) (act : Program), dueStimulus s = none → s.dly = 0 → s.phase ≠ .reserved →
    s.seq = .run act (programWords act).length →
      ∃ t, step s = .next t ∧ t.seq = .poll ∧ t.dly = iterationOverhead s ∧ t.rows = s.rows ∧ t.pcnt = s.pcnt ∧
        t.log = s.log ∧ t.now = s.now ∧ t.framing = s.framing ∧ t.preq = s.preq ∧ t.preqLast = s.preqLast

/-- A word placed for the next step is the word the next step forms (log 11): the dispatch word at a poll point, or the
micro-operation word. -/
def Obligations.PlacedWordIsTheNextWord : Prop :=
  (∀ (s : State) (d : DispatchWord), nextTurn (placeDispatchWord s d) = .poll ∧
      dispatchWord (sampled (placeDispatchWord s d)) = d) ∧
    (∀ (s : State) (e : EdgeWord), nextTurn (placeEdgeWord s e) = .poll ∧
      edgeWord (sampled (placeEdgeWord s e)) = e) ∧
    (∀ (s : State) (u : MicroWord) (i : Instr), s.phase ≠ .reserved → decodeMicro u = .ok i →
      nextTurn (placeMicroWord s u) = .micro i)

/-! ### Who writes what (R24) -/

/-- R12, R24: `cur` is written by `SAMPLE` at a poll point and by nothing else. -/
def Obligations.CurIsWrittenOnlyByTheSample : Prop :=
  ∀ s t : State, step s = .next t → t.cur ≠ s.cur → nextTurn s = .poll ∧ t.cur = s.framing

/-- R13, R24: `exp` is written by INCEXP and RSTEXP and by nothing else. -/
def Obligations.ExpIsWrittenOnlyByIncexpAndRstexp : Prop :=
  ∀ s t : State, step s = .next t → t.exp ≠ s.exp →
    (nextTurn s = .micro .incexp ∧ t.exp = s.exp + 1) ∨ (nextTurn s = .micro .rstexp ∧ t.exp = 0)

/-- R14, R24: `pcnt` is written by `COUNT` on a fall of `PREQ` and by RSTCNT, and by nothing else. -/
def Obligations.PcntIsWrittenOnlyByCountAndRstcnt : Prop :=
  ∀ s t : State, step s = .next t → t.pcnt ≠ s.pcnt →
    (nextTurn s = .micro .rstcnt ∧ t.pcnt = 0) ∨
      (∃ e rest, nextTurn s = .environment e rest ∧ e.line = .preq ∧ e.level = .low ∧ s.preqLast = .high ∧
        t.pcnt = s.pcnt + 1)

/-- R15, R24: `phase` is written by SETPHASE and by nothing else. -/
def Obligations.PhaseIsWrittenOnlyBySetphase : Prop :=
  ∀ s t : State, step s = .next t → t.phase ≠ s.phase → nextTurn s = .micro (.setphase t.phase)

/-- R16, R24: an output moves by a TGL or a SET that names its line and by nothing else. -/
def Obligations.OutputsMoveOnlyByToggleAndSet : Prop :=
  ∀ (s t : State) (l : OutLine), step s = .next t → t.out.get l ≠ s.out.get l →
    (∃ lines, nextTurn s = .micro (.tgl lines) ∧ lines.has l = true) ∨
      (∃ v lines, nextTurn s = .micro (.set v lines) ∧ lines.has l = true ∧ t.out.get l = v)

/-- R105, and R16 for the other lines: in a run, `SYNC` falls only in the first slot of a burst and rises only at the end of END, `FLOW`
falls only at the end of START and rises only at the end of END, and `SPI_CLK` moves only in BYTE. -/
def Obligations.EachLineMovesOnlyWhereItsProtocolMovesIt : Prop :=
  ∀ s t : State, SessionInv s → step s = .next t →
    (s.out.sync = .high → t.out.sync = .low → s.seq = .run .byte 2) ∧
      (s.out.sync = .low → t.out.sync = .high → s.seq = .run .endAction 65) ∧
      (s.out.flow = .high → t.out.flow = .low → s.seq = .run .start 8) ∧
      (s.out.flow = .low → t.out.flow = .high → s.seq = .run .endAction 66) ∧
      (t.out.spiClk ≠ s.out.spiClk → ∃ upc, s.seq = .run .byte upc) ∧
      (t.out.sioClk ≠ s.out.sioClk → ∃ act upc, s.seq = .run act upc)

/-! ### Actions and sessions -/

/-- R88, R99: an action once begun runs to its end whatever the environment does and whatever the state is: within a bounded number
of steps every micro-operation has run once, in order; the time it takes, what it makes of the sequencer's rows and the output
changes with their times are those of the action alone, begun from these rows. -/
def Obligations.ActionRunsToItsEndWhateverTheEnvironmentDoes : Prop :=
  ∀ (act : Program) (s : State), act = .start ∨ act = .byte ∨ act = .endAction →
    s.seq = .run act 0 → s.dly = 0 → s.phase ≠ .reserved →
      ∃ (k : Nat) (t : State), k ≤ (programWords act).length + runTime (programWords act) + s.env.length ∧
        Sys2Proof.core.run k s = .next t ∧ t.seq = .run act (programWords act).length ∧ t.dly = 0 ∧
        t.now = s.now + runTime (programWords act) ∧ t.rows = runRows (programWords act) s.rows ∧
        t.trace = s.trace ++ runEvents (programWords act) s.now s.rows

/-- R89, R90: the big step is the composition of the small steps from one poll point to the next, whatever the environment does
meanwhile: no poll point lies between, and the rows and the output trace at the next one are those of `Tick`; with no
stimulus to come the counter is 0 after an END and otherwise as it was. R145: the next poll point comes after the action's time and
the iteration's overhead, which is above 0 for a NOP (log 3). -/
def Obligations.SmallStepsComposeToTheBigTick : Prop :=
  ∀ (s : State) (x : TickResult), nextTurn s = .poll → bigTick s.rows s.framing s.pcnt s.now = some x →
    ∃ (k : Nat) (t : State), 1 ≤ k ∧ Sys2Proof.core.run k s = .next t ∧ nextTurn t = .poll ∧
      (∀ (j : Nat) (u : State), 1 ≤ j → j < k → Sys2Proof.core.run j s = .next u → nextTurn u ≠ .poll) ∧
      t.rows = x.rows ∧ t.trace = s.trace ++ x.events ∧
      t.now = s.now + x.time + (if x.action = .nop then max 1 (iterationOverhead s) else iterationOverhead s) ∧
      (s.env = [] → t.env = [] ∧ t.pcnt = if x.action = .endAction then 0 else s.pcnt)

/-- R87: the transitions of `phase` from poll point to poll point, each with the action that makes it; no other exists. -/
def Obligations.PhaseTransitionsArePollToPoll : Prop :=
  ∀ (r : Rows) (f : Level) (c : Count) (t : Nat) (x : TickResult), bigTick r f c t = some x →
    (r.phase = .idle ∧ x.action = .start ∧ x.rows.phase = .active) ∨
      (r.phase = .active ∧ (x.action = .byte ∨ x.action = .nop) ∧ x.rows.phase = .active) ∨
      (r.phase = .active ∧ x.action = .endAction ∧ x.rows.phase = .idle) ∨
      (r.phase = .idle ∧ x.action = .nop ∧ x.rows.phase = .idle)

/-- R83, R116: in Active with a pulse pending a step begins a burst, whatever the framing line does; a rising edge is not consumed. -/
def Obligations.PendingPulseIsServedBeforeTheRisingEdge : Prop :=
  ∀ s : State, dueStimulus s = none → s.dly = 0 → s.seq = .poll → s.phase = .active → s.pcnt ≠ s.exp →
    ∃ t, step s = .next t ∧ t.seq = .run .byte 0 ∧ t.prev = s.prev ∧ t.exp = s.exp ∧ t.pcnt = s.pcnt ∧
      t.phase = .active ∧ t.out = s.out

/-- R67, R75, R136: while the framing line is held HIGH and no further pulse comes (the counter stays `c`), a rising edge in Active waits
for the whole backlog: as many bursts as pulses are owed, then END. -/
def Obligations.RisingEdgeWaitsForTheBacklog : Prop :=
  ∀ (r : Rows) (c : Count), ActiveRow r →
    ∃ last, bigRun r (List.replicate ((backlog c r.exp).toNat + 1) (.high, c)) =
        some (List.replicate (backlog c r.exp).toNat .byte ++ [.endAction], last) ∧
      IdleRow last ∧ last.cur = .high

/-- R103, R108: from Idle, a run of the loop that begins with a falling edge and ends with the first END after it is one START, then only
bursts and idle iterations, then END, and it leaves every row and every output at its reset value, however many bursts there were. -/
def Obligations.SessionEndsInTheResetRows : Prop :=
  ∀ (r last : Rows) (c : Count) (ins : List (Level × Count)) (acts : List Action), IdleRow r →
    bigRun r ((.low, c) :: ins) = some (.start :: acts ++ [.endAction], last) → .endAction ∉ acts →
      (∀ a ∈ acts, a = .byte ∨ a = .nop) ∧ IdleRow last ∧ last.cur = .high

/-- R107: END leaves the same pins when it is run twice, and each action leaves the clocks as it found them. -/
def Obligations.EndIsIdempotentOnThePins : Prop :=
  ∀ o : Outputs,
    runOutputs (programWords .endAction) (runOutputs (programWords .endAction) o) =
        runOutputs (programWords .endAction) o ∧
      runOutputs (programWords .endAction) o = { o with sync := .high, flow := .high } ∧
      runOutputs (programWords .start) o = { o with flow := o.flow.not } ∧
      runOutputs (programWords .byte) o = { o with sync := .low }

/-! ### Lengths, terms without a word, scripts -/

/-- R58: every word has the one length of its format, 2, 5 or 8 bits, and its length and its bits say which word it is. -/
def Obligations.EachFormatHasOneFixedLength : Prop :=
  (∀ w : TableWord, wordOfLength w.length w.bits = some w) ∧
    (∀ (n b : Nat) (w : TableWord), wordOfLength n b = some w → w.length = n ∧ w.bits = b) ∧
    (∀ n b : Nat, n ≠ 2 → n ≠ 5 → n ≠ 8 → wordOfLength n b = none) ∧
    (∀ e : EdgeWord, (TableWord.edge e).length = 2) ∧ (∀ d : DispatchWord, (TableWord.dispatch d).length = 5) ∧
    (∀ u : MicroWord, (TableWord.micro u).length = 8)

/-- The terms that no word stands for (R53) have the plain effect of their operation, and no word decodes to one. That effect is the
model's choice (log 19). -/
def Obligations.TermsWithoutAWordHaveTheirPlainEffect : Prop :=
  (∀ (lines : LineSet) (v : Level) (s : State), lines.nonEmpty = false →
      exec (.tgl lines) s = .next s ∧ exec (.set v lines) s = .next s) ∧
    (∀ (n : Nat) (s : State), n = 0 ∨ 31 < n → exec (.dly n) s = .next { s with dly := n * 25 }) ∧
    (∀ s : State, exec (.setphase .reserved) s = .next { s with phase := .reserved }) ∧
    (∀ (w : TableWord) (i : Instr), decode w = .ok i →
      (∀ lines v, lines.nonEmpty = false → i ≠ .tgl lines ∧ i ≠ .set v lines) ∧
        (∀ n, n = 0 ∨ 31 < n → i ≠ .dly n) ∧ i ≠ .setphase .reserved)

/-- R57: the environment takes the lines of a script in the order of their times, those of one time in the order they are listed in, a
pulse as its fall and its rise, each before the sequencer's step at its time. The order within one time is the model's choice
(log 21). -/
def Obligations.ScriptIsTakenInTheOrderOfItsTimes : Prop :=
  ∀ script : List ScriptLine,
    (scriptStimuli script).Pairwise (fun a b => a.time ≤ b.time) ∧
      (scriptStimuli script).Perm (script.flatMap ScriptLine.stimuli) ∧
      (∀ t, (scriptStimuli script).filter (fun e => decide (e.time = t)) =
        (script.flatMap ScriptLine.stimuli).filter (fun e => decide (e.time = t))) ∧
      (∀ e ∈ scriptStimuli script, e.skip = 0)

/-- R57: at a launch with a script every stimulus lies ahead, in order. -/
def Obligations.LaunchHasItsScriptOnTime : Prop :=
  ∀ l : Launch, ScriptOnTime l.start

/-- R57: every step keeps the script on time, so a stimulus is taken at its own time, before any step of the sequencer at that time. -/
def Obligations.StepKeepsTheScriptOnTime : Prop :=
  ∀ s t : State, ScriptOnTime s → step s = .next t → ScriptOnTime t ∧
    (∀ e rest, s.env = e :: rest → e.time = s.now → nextTurn s = .environment e rest) ∧
    (∀ e rest, nextTurn s = .environment e rest → e.time = s.now)

/-- R57: the encoding of a run is that of its parts, one after the other; an iteration's is its dispatch word, or nothing for a NOP. -/
def Obligations.RunEncodingListsTheActingDispatchWords : Prop :=
  (∀ (a b : Nat) (s t : State), Sys2Proof.core.run a s = .next t →
      runEncoding (a + b) s = runEncoding a s ++ runEncoding b t) ∧
    ∀ (s : State) (x : TickResult), nextTurn s = .poll → bigTick s.rows s.framing s.pcnt s.now = some x →
      ∃ (k : Nat) (t : State), 1 ≤ k ∧ Sys2Proof.core.run k s = .next t ∧ nextTurn t = .poll ∧
        (∀ (j : Nat) (u : State), 1 ≤ j → j < k → Sys2Proof.core.run j s = .next u → nextTurn u ≠ .poll) ∧
        runEncoding k s =
          if x.action = .nop then [] else [dispatchWordOf s.phase s.prev s.framing (s.pcnt != s.exp)]
end

