-- ==== Sys2Proof/Laws/State.lean ====
section
/-! SUPPORT. One lemma for each field and each update of the state, true by rfl. -/

namespace Sys2Proof.Machine

@[simp] theorem State.setPrev_prev (s : State) (v : Level) : (s.setPrev v).prev = v := rfl
@[simp] theorem State.setPrev_cur (s : State) (v : Level) : (s.setPrev v).cur = s.cur := rfl
@[simp] theorem State.setPrev_exp (s : State) (v : Level) : (s.setPrev v).exp = s.exp := rfl
@[simp] theorem State.setPrev_pcnt (s : State) (v : Level) : (s.setPrev v).pcnt = s.pcnt := rfl
@[simp] theorem State.setPrev_phase (s : State) (v : Level) : (s.setPrev v).phase = s.phase := rfl
@[simp] theorem State.setPrev_out (s : State) (v : Level) : (s.setPrev v).out = s.out := rfl
@[simp] theorem State.setPrev_seq (s : State) (v : Level) : (s.setPrev v).seq = s.seq := rfl
@[simp] theorem State.setPrev_dly (s : State) (v : Level) : (s.setPrev v).dly = s.dly := rfl
@[simp] theorem State.setPrev_preqLast (s : State) (v : Level) : (s.setPrev v).preqLast = s.preqLast := rfl
@[simp] theorem State.setPrev_framing (s : State) (v : Level) : (s.setPrev v).framing = s.framing := rfl
@[simp] theorem State.setPrev_preq (s : State) (v : Level) : (s.setPrev v).preq = s.preq := rfl
@[simp] theorem State.setPrev_edge (s : State) (v : Level) : (s.setPrev v).edge = s.edge := rfl
@[simp] theorem State.setPrev_env (s : State) (v : Level) : (s.setPrev v).env = s.env := rfl
@[simp] theorem State.setPrev_overheads (s : State) (v : Level) : (s.setPrev v).overheads = s.overheads := rfl
@[simp] theorem State.setPrev_iter (s : State) (v : Level) : (s.setPrev v).iter = s.iter := rfl
@[simp] theorem State.setPrev_now (s : State) (v : Level) : (s.setPrev v).now = s.now := rfl
@[simp] theorem State.setPrev_log (s : State) (v : Level) : (s.setPrev v).log = s.log := rfl
@[simp] theorem State.setCur_prev (s : State) (v : Level) : (s.setCur v).prev = s.prev := rfl
@[simp] theorem State.setCur_cur (s : State) (v : Level) : (s.setCur v).cur = v := rfl
@[simp] theorem State.setCur_exp (s : State) (v : Level) : (s.setCur v).exp = s.exp := rfl
@[simp] theorem State.setCur_pcnt (s : State) (v : Level) : (s.setCur v).pcnt = s.pcnt := rfl
@[simp] theorem State.setCur_phase (s : State) (v : Level) : (s.setCur v).phase = s.phase := rfl
@[simp] theorem State.setCur_out (s : State) (v : Level) : (s.setCur v).out = s.out := rfl
@[simp] theorem State.setCur_seq (s : State) (v : Level) : (s.setCur v).seq = s.seq := rfl
@[simp] theorem State.setCur_dly (s : State) (v : Level) : (s.setCur v).dly = s.dly := rfl
@[simp] theorem State.setCur_preqLast (s : State) (v : Level) : (s.setCur v).preqLast = s.preqLast := rfl
@[simp] theorem State.setCur_framing (s : State) (v : Level) : (s.setCur v).framing = s.framing := rfl
@[simp] theorem State.setCur_preq (s : State) (v : Level) : (s.setCur v).preq = s.preq := rfl
@[simp] theorem State.setCur_edge (s : State) (v : Level) : (s.setCur v).edge = s.edge := rfl
@[simp] theorem State.setCur_env (s : State) (v : Level) : (s.setCur v).env = s.env := rfl
@[simp] theorem State.setCur_overheads (s : State) (v : Level) : (s.setCur v).overheads = s.overheads := rfl
@[simp] theorem State.setCur_iter (s : State) (v : Level) : (s.setCur v).iter = s.iter := rfl
@[simp] theorem State.setCur_now (s : State) (v : Level) : (s.setCur v).now = s.now := rfl
@[simp] theorem State.setCur_log (s : State) (v : Level) : (s.setCur v).log = s.log := rfl
@[simp] theorem State.setExp_prev (s : State) (v : Count) : (s.setExp v).prev = s.prev := rfl
@[simp] theorem State.setExp_cur (s : State) (v : Count) : (s.setExp v).cur = s.cur := rfl
@[simp] theorem State.setExp_exp (s : State) (v : Count) : (s.setExp v).exp = v := rfl
@[simp] theorem State.setExp_pcnt (s : State) (v : Count) : (s.setExp v).pcnt = s.pcnt := rfl
@[simp] theorem State.setExp_phase (s : State) (v : Count) : (s.setExp v).phase = s.phase := rfl
@[simp] theorem State.setExp_out (s : State) (v : Count) : (s.setExp v).out = s.out := rfl
@[simp] theorem State.setExp_seq (s : State) (v : Count) : (s.setExp v).seq = s.seq := rfl
@[simp] theorem State.setExp_dly (s : State) (v : Count) : (s.setExp v).dly = s.dly := rfl
@[simp] theorem State.setExp_preqLast (s : State) (v : Count) : (s.setExp v).preqLast = s.preqLast := rfl
@[simp] theorem State.setExp_framing (s : State) (v : Count) : (s.setExp v).framing = s.framing := rfl
@[simp] theorem State.setExp_preq (s : State) (v : Count) : (s.setExp v).preq = s.preq := rfl
@[simp] theorem State.setExp_edge (s : State) (v : Count) : (s.setExp v).edge = s.edge := rfl
@[simp] theorem State.setExp_env (s : State) (v : Count) : (s.setExp v).env = s.env := rfl
@[simp] theorem State.setExp_overheads (s : State) (v : Count) : (s.setExp v).overheads = s.overheads := rfl
@[simp] theorem State.setExp_iter (s : State) (v : Count) : (s.setExp v).iter = s.iter := rfl
@[simp] theorem State.setExp_now (s : State) (v : Count) : (s.setExp v).now = s.now := rfl
@[simp] theorem State.setExp_log (s : State) (v : Count) : (s.setExp v).log = s.log := rfl
@[simp] theorem State.setPcnt_prev (s : State) (v : Count) : (s.setPcnt v).prev = s.prev := rfl
@[simp] theorem State.setPcnt_cur (s : State) (v : Count) : (s.setPcnt v).cur = s.cur := rfl
@[simp] theorem State.setPcnt_exp (s : State) (v : Count) : (s.setPcnt v).exp = s.exp := rfl
@[simp] theorem State.setPcnt_pcnt (s : State) (v : Count) : (s.setPcnt v).pcnt = v := rfl
@[simp] theorem State.setPcnt_phase (s : State) (v : Count) : (s.setPcnt v).phase = s.phase := rfl
@[simp] theorem State.setPcnt_out (s : State) (v : Count) : (s.setPcnt v).out = s.out := rfl
@[simp] theorem State.setPcnt_seq (s : State) (v : Count) : (s.setPcnt v).seq = s.seq := rfl
@[simp] theorem State.setPcnt_dly (s : State) (v : Count) : (s.setPcnt v).dly = s.dly := rfl
@[simp] theorem State.setPcnt_preqLast (s : State) (v : Count) : (s.setPcnt v).preqLast = s.preqLast := rfl
@[simp] theorem State.setPcnt_framing (s : State) (v : Count) : (s.setPcnt v).framing = s.framing := rfl
@[simp] theorem State.setPcnt_preq (s : State) (v : Count) : (s.setPcnt v).preq = s.preq := rfl
@[simp] theorem State.setPcnt_edge (s : State) (v : Count) : (s.setPcnt v).edge = s.edge := rfl
@[simp] theorem State.setPcnt_env (s : State) (v : Count) : (s.setPcnt v).env = s.env := rfl
@[simp] theorem State.setPcnt_overheads (s : State) (v : Count) : (s.setPcnt v).overheads = s.overheads := rfl
@[simp] theorem State.setPcnt_iter (s : State) (v : Count) : (s.setPcnt v).iter = s.iter := rfl
@[simp] theorem State.setPcnt_now (s : State) (v : Count) : (s.setPcnt v).now = s.now := rfl
@[simp] theorem State.setPcnt_log (s : State) (v : Count) : (s.setPcnt v).log = s.log := rfl
@[simp] theorem State.setPhase_prev (s : State) (v : Phase) : (s.setPhase v).prev = s.prev := rfl
@[simp] theorem State.setPhase_cur (s : State) (v : Phase) : (s.setPhase v).cur = s.cur := rfl
@[simp] theorem State.setPhase_exp (s : State) (v : Phase) : (s.setPhase v).exp = s.exp := rfl
@[simp] theorem State.setPhase_pcnt (s : State) (v : Phase) : (s.setPhase v).pcnt = s.pcnt := rfl
@[simp] theorem State.setPhase_phase (s : State) (v : Phase) : (s.setPhase v).phase = v := rfl
@[simp] theorem State.setPhase_out (s : State) (v : Phase) : (s.setPhase v).out = s.out := rfl
@[simp] theorem State.setPhase_seq (s : State) (v : Phase) : (s.setPhase v).seq = s.seq := rfl
@[simp] theorem State.setPhase_dly (s : State) (v : Phase) : (s.setPhase v).dly = s.dly := rfl
@[simp] theorem State.setPhase_preqLast (s : State) (v : Phase) : (s.setPhase v).preqLast = s.preqLast := rfl
@[simp] theorem State.setPhase_framing (s : State) (v : Phase) : (s.setPhase v).framing = s.framing := rfl
@[simp] theorem State.setPhase_preq (s : State) (v : Phase) : (s.setPhase v).preq = s.preq := rfl
@[simp] theorem State.setPhase_edge (s : State) (v : Phase) : (s.setPhase v).edge = s.edge := rfl
@[simp] theorem State.setPhase_env (s : State) (v : Phase) : (s.setPhase v).env = s.env := rfl
@[simp] theorem State.setPhase_overheads (s : State) (v : Phase) : (s.setPhase v).overheads = s.overheads := rfl
@[simp] theorem State.setPhase_iter (s : State) (v : Phase) : (s.setPhase v).iter = s.iter := rfl
@[simp] theorem State.setPhase_now (s : State) (v : Phase) : (s.setPhase v).now = s.now := rfl
@[simp] theorem State.setPhase_log (s : State) (v : Phase) : (s.setPhase v).log = s.log := rfl
@[simp] theorem State.setOut_prev (s : State) (v : Outputs) : (s.setOut v).prev = s.prev := rfl
@[simp] theorem State.setOut_cur (s : State) (v : Outputs) : (s.setOut v).cur = s.cur := rfl
@[simp] theorem State.setOut_exp (s : State) (v : Outputs) : (s.setOut v).exp = s.exp := rfl
@[simp] theorem State.setOut_pcnt (s : State) (v : Outputs) : (s.setOut v).pcnt = s.pcnt := rfl
@[simp] theorem State.setOut_phase (s : State) (v : Outputs) : (s.setOut v).phase = s.phase := rfl
@[simp] theorem State.setOut_out (s : State) (v : Outputs) : (s.setOut v).out = v := rfl
@[simp] theorem State.setOut_seq (s : State) (v : Outputs) : (s.setOut v).seq = s.seq := rfl
@[simp] theorem State.setOut_dly (s : State) (v : Outputs) : (s.setOut v).dly = s.dly := rfl
@[simp] theorem State.setOut_preqLast (s : State) (v : Outputs) : (s.setOut v).preqLast = s.preqLast := rfl
@[simp] theorem State.setOut_framing (s : State) (v : Outputs) : (s.setOut v).framing = s.framing := rfl
@[simp] theorem State.setOut_preq (s : State) (v : Outputs) : (s.setOut v).preq = s.preq := rfl
@[simp] theorem State.setOut_edge (s : State) (v : Outputs) : (s.setOut v).edge = s.edge := rfl
@[simp] theorem State.setOut_env (s : State) (v : Outputs) : (s.setOut v).env = s.env := rfl
@[simp] theorem State.setOut_overheads (s : State) (v : Outputs) : (s.setOut v).overheads = s.overheads := rfl
@[simp] theorem State.setOut_iter (s : State) (v : Outputs) : (s.setOut v).iter = s.iter := rfl
@[simp] theorem State.setOut_now (s : State) (v : Outputs) : (s.setOut v).now = s.now := rfl
@[simp] theorem State.setOut_log (s : State) (v : Outputs) : (s.setOut v).log = s.log := rfl
@[simp] theorem State.setSeq_prev (s : State) (v : Seq) : (s.setSeq v).prev = s.prev := rfl
@[simp] theorem State.setSeq_cur (s : State) (v : Seq) : (s.setSeq v).cur = s.cur := rfl
@[simp] theorem State.setSeq_exp (s : State) (v : Seq) : (s.setSeq v).exp = s.exp := rfl
@[simp] theorem State.setSeq_pcnt (s : State) (v : Seq) : (s.setSeq v).pcnt = s.pcnt := rfl
@[simp] theorem State.setSeq_phase (s : State) (v : Seq) : (s.setSeq v).phase = s.phase := rfl
@[simp] theorem State.setSeq_out (s : State) (v : Seq) : (s.setSeq v).out = s.out := rfl
@[simp] theorem State.setSeq_seq (s : State) (v : Seq) : (s.setSeq v).seq = v := rfl
@[simp] theorem State.setSeq_dly (s : State) (v : Seq) : (s.setSeq v).dly = s.dly := rfl
@[simp] theorem State.setSeq_preqLast (s : State) (v : Seq) : (s.setSeq v).preqLast = s.preqLast := rfl
@[simp] theorem State.setSeq_framing (s : State) (v : Seq) : (s.setSeq v).framing = s.framing := rfl
@[simp] theorem State.setSeq_preq (s : State) (v : Seq) : (s.setSeq v).preq = s.preq := rfl
@[simp] theorem State.setSeq_edge (s : State) (v : Seq) : (s.setSeq v).edge = s.edge := rfl
@[simp] theorem State.setSeq_env (s : State) (v : Seq) : (s.setSeq v).env = s.env := rfl
@[simp] theorem State.setSeq_overheads (s : State) (v : Seq) : (s.setSeq v).overheads = s.overheads := rfl
@[simp] theorem State.setSeq_iter (s : State) (v : Seq) : (s.setSeq v).iter = s.iter := rfl
@[simp] theorem State.setSeq_now (s : State) (v : Seq) : (s.setSeq v).now = s.now := rfl
@[simp] theorem State.setSeq_log (s : State) (v : Seq) : (s.setSeq v).log = s.log := rfl
@[simp] theorem State.setDly_prev (s : State) (v : Nat) : (s.setDly v).prev = s.prev := rfl
@[simp] theorem State.setDly_cur (s : State) (v : Nat) : (s.setDly v).cur = s.cur := rfl
@[simp] theorem State.setDly_exp (s : State) (v : Nat) : (s.setDly v).exp = s.exp := rfl
@[simp] theorem State.setDly_pcnt (s : State) (v : Nat) : (s.setDly v).pcnt = s.pcnt := rfl
@[simp] theorem State.setDly_phase (s : State) (v : Nat) : (s.setDly v).phase = s.phase := rfl
@[simp] theorem State.setDly_out (s : State) (v : Nat) : (s.setDly v).out = s.out := rfl
@[simp] theorem State.setDly_seq (s : State) (v : Nat) : (s.setDly v).seq = s.seq := rfl
@[simp] theorem State.setDly_dly (s : State) (v : Nat) : (s.setDly v).dly = v := rfl
@[simp] theorem State.setDly_preqLast (s : State) (v : Nat) : (s.setDly v).preqLast = s.preqLast := rfl
@[simp] theorem State.setDly_framing (s : State) (v : Nat) : (s.setDly v).framing = s.framing := rfl
@[simp] theorem State.setDly_preq (s : State) (v : Nat) : (s.setDly v).preq = s.preq := rfl
@[simp] theorem State.setDly_edge (s : State) (v : Nat) : (s.setDly v).edge = s.edge := rfl
@[simp] theorem State.setDly_env (s : State) (v : Nat) : (s.setDly v).env = s.env := rfl
@[simp] theorem State.setDly_overheads (s : State) (v : Nat) : (s.setDly v).overheads = s.overheads := rfl
@[simp] theorem State.setDly_iter (s : State) (v : Nat) : (s.setDly v).iter = s.iter := rfl
@[simp] theorem State.setDly_now (s : State) (v : Nat) : (s.setDly v).now = s.now := rfl
@[simp] theorem State.setDly_log (s : State) (v : Nat) : (s.setDly v).log = s.log := rfl
@[simp] theorem State.setPreqLast_prev (s : State) (v : Level) : (s.setPreqLast v).prev = s.prev := rfl
@[simp] theorem State.setPreqLast_cur (s : State) (v : Level) : (s.setPreqLast v).cur = s.cur := rfl
@[simp] theorem State.setPreqLast_exp (s : State) (v : Level) : (s.setPreqLast v).exp = s.exp := rfl
@[simp] theorem State.setPreqLast_pcnt (s : State) (v : Level) : (s.setPreqLast v).pcnt = s.pcnt := rfl
@[simp] theorem State.setPreqLast_phase (s : State) (v : Level) : (s.setPreqLast v).phase = s.phase := rfl
@[simp] theorem State.setPreqLast_out (s : State) (v : Level) : (s.setPreqLast v).out = s.out := rfl
@[simp] theorem State.setPreqLast_seq (s : State) (v : Level) : (s.setPreqLast v).seq = s.seq := rfl
@[simp] theorem State.setPreqLast_dly (s : State) (v : Level) : (s.setPreqLast v).dly = s.dly := rfl
@[simp] theorem State.setPreqLast_preqLast (s : State) (v : Level) : (s.setPreqLast v).preqLast = v := rfl
@[simp] theorem State.setPreqLast_framing (s : State) (v : Level) : (s.setPreqLast v).framing = s.framing := rfl
@[simp] theorem State.setPreqLast_preq (s : State) (v : Level) : (s.setPreqLast v).preq = s.preq := rfl
@[simp] theorem State.setPreqLast_edge (s : State) (v : Level) : (s.setPreqLast v).edge = s.edge := rfl
@[simp] theorem State.setPreqLast_env (s : State) (v : Level) : (s.setPreqLast v).env = s.env := rfl
@[simp] theorem State.setPreqLast_overheads (s : State) (v : Level) : (s.setPreqLast v).overheads = s.overheads := rfl
@[simp] theorem State.setPreqLast_iter (s : State) (v : Level) : (s.setPreqLast v).iter = s.iter := rfl
@[simp] theorem State.setPreqLast_now (s : State) (v : Level) : (s.setPreqLast v).now = s.now := rfl
@[simp] theorem State.setPreqLast_log (s : State) (v : Level) : (s.setPreqLast v).log = s.log := rfl
@[simp] theorem State.setFraming_prev (s : State) (v : Level) : (s.setFraming v).prev = s.prev := rfl
@[simp] theorem State.setFraming_cur (s : State) (v : Level) : (s.setFraming v).cur = s.cur := rfl
@[simp] theorem State.setFraming_exp (s : State) (v : Level) : (s.setFraming v).exp = s.exp := rfl
@[simp] theorem State.setFraming_pcnt (s : State) (v : Level) : (s.setFraming v).pcnt = s.pcnt := rfl
@[simp] theorem State.setFraming_phase (s : State) (v : Level) : (s.setFraming v).phase = s.phase := rfl
@[simp] theorem State.setFraming_out (s : State) (v : Level) : (s.setFraming v).out = s.out := rfl
@[simp] theorem State.setFraming_seq (s : State) (v : Level) : (s.setFraming v).seq = s.seq := rfl
@[simp] theorem State.setFraming_dly (s : State) (v : Level) : (s.setFraming v).dly = s.dly := rfl
@[simp] theorem State.setFraming_preqLast (s : State) (v : Level) : (s.setFraming v).preqLast = s.preqLast := rfl
@[simp] theorem State.setFraming_framing (s : State) (v : Level) : (s.setFraming v).framing = v := rfl
@[simp] theorem State.setFraming_preq (s : State) (v : Level) : (s.setFraming v).preq = s.preq := rfl
@[simp] theorem State.setFraming_edge (s : State) (v : Level) : (s.setFraming v).edge = s.edge := rfl
@[simp] theorem State.setFraming_env (s : State) (v : Level) : (s.setFraming v).env = s.env := rfl
@[simp] theorem State.setFraming_overheads (s : State) (v : Level) : (s.setFraming v).overheads = s.overheads := rfl
@[simp] theorem State.setFraming_iter (s : State) (v : Level) : (s.setFraming v).iter = s.iter := rfl
@[simp] theorem State.setFraming_now (s : State) (v : Level) : (s.setFraming v).now = s.now := rfl
@[simp] theorem State.setFraming_log (s : State) (v : Level) : (s.setFraming v).log = s.log := rfl
@[simp] theorem State.setPreq_prev (s : State) (v : Level) : (s.setPreq v).prev = s.prev := rfl
@[simp] theorem State.setPreq_cur (s : State) (v : Level) : (s.setPreq v).cur = s.cur := rfl
@[simp] theorem State.setPreq_exp (s : State) (v : Level) : (s.setPreq v).exp = s.exp := rfl
@[simp] theorem State.setPreq_pcnt (s : State) (v : Level) : (s.setPreq v).pcnt = s.pcnt := rfl
@[simp] theorem State.setPreq_phase (s : State) (v : Level) : (s.setPreq v).phase = s.phase := rfl
@[simp] theorem State.setPreq_out (s : State) (v : Level) : (s.setPreq v).out = s.out := rfl
@[simp] theorem State.setPreq_seq (s : State) (v : Level) : (s.setPreq v).seq = s.seq := rfl
@[simp] theorem State.setPreq_dly (s : State) (v : Level) : (s.setPreq v).dly = s.dly := rfl
@[simp] theorem State.setPreq_preqLast (s : State) (v : Level) : (s.setPreq v).preqLast = s.preqLast := rfl
@[simp] theorem State.setPreq_framing (s : State) (v : Level) : (s.setPreq v).framing = s.framing := rfl
@[simp] theorem State.setPreq_preq (s : State) (v : Level) : (s.setPreq v).preq = v := rfl
@[simp] theorem State.setPreq_edge (s : State) (v : Level) : (s.setPreq v).edge = s.edge := rfl
@[simp] theorem State.setPreq_env (s : State) (v : Level) : (s.setPreq v).env = s.env := rfl
@[simp] theorem State.setPreq_overheads (s : State) (v : Level) : (s.setPreq v).overheads = s.overheads := rfl
@[simp] theorem State.setPreq_iter (s : State) (v : Level) : (s.setPreq v).iter = s.iter := rfl
@[simp] theorem State.setPreq_now (s : State) (v : Level) : (s.setPreq v).now = s.now := rfl
@[simp] theorem State.setPreq_log (s : State) (v : Level) : (s.setPreq v).log = s.log := rfl
@[simp] theorem State.setEdge_prev (s : State) (v : Option EdgeClass) : (s.setEdge v).prev = s.prev := rfl
@[simp] theorem State.setEdge_cur (s : State) (v : Option EdgeClass) : (s.setEdge v).cur = s.cur := rfl
@[simp] theorem State.setEdge_exp (s : State) (v : Option EdgeClass) : (s.setEdge v).exp = s.exp := rfl
@[simp] theorem State.setEdge_pcnt (s : State) (v : Option EdgeClass) : (s.setEdge v).pcnt = s.pcnt := rfl
@[simp] theorem State.setEdge_phase (s : State) (v : Option EdgeClass) : (s.setEdge v).phase = s.phase := rfl
@[simp] theorem State.setEdge_out (s : State) (v : Option EdgeClass) : (s.setEdge v).out = s.out := rfl
@[simp] theorem State.setEdge_seq (s : State) (v : Option EdgeClass) : (s.setEdge v).seq = s.seq := rfl
@[simp] theorem State.setEdge_dly (s : State) (v : Option EdgeClass) : (s.setEdge v).dly = s.dly := rfl
@[simp] theorem State.setEdge_preqLast (s : State) (v : Option EdgeClass) : (s.setEdge v).preqLast = s.preqLast := rfl
@[simp] theorem State.setEdge_framing (s : State) (v : Option EdgeClass) : (s.setEdge v).framing = s.framing := rfl
@[simp] theorem State.setEdge_preq (s : State) (v : Option EdgeClass) : (s.setEdge v).preq = s.preq := rfl
@[simp] theorem State.setEdge_edge (s : State) (v : Option EdgeClass) : (s.setEdge v).edge = v := rfl
@[simp] theorem State.setEdge_env (s : State) (v : Option EdgeClass) : (s.setEdge v).env = s.env := rfl
@[simp] theorem State.setEdge_overheads (s : State) (v : Option EdgeClass) : (s.setEdge v).overheads = s.overheads := rfl
@[simp] theorem State.setEdge_iter (s : State) (v : Option EdgeClass) : (s.setEdge v).iter = s.iter := rfl
@[simp] theorem State.setEdge_now (s : State) (v : Option EdgeClass) : (s.setEdge v).now = s.now := rfl
@[simp] theorem State.setEdge_log (s : State) (v : Option EdgeClass) : (s.setEdge v).log = s.log := rfl
@[simp] theorem State.setEnv_prev (s : State) (v : List Stimulus) : (s.setEnv v).prev = s.prev := rfl
@[simp] theorem State.setEnv_cur (s : State) (v : List Stimulus) : (s.setEnv v).cur = s.cur := rfl
@[simp] theorem State.setEnv_exp (s : State) (v : List Stimulus) : (s.setEnv v).exp = s.exp := rfl
@[simp] theorem State.setEnv_pcnt (s : State) (v : List Stimulus) : (s.setEnv v).pcnt = s.pcnt := rfl
@[simp] theorem State.setEnv_phase (s : State) (v : List Stimulus) : (s.setEnv v).phase = s.phase := rfl
@[simp] theorem State.setEnv_out (s : State) (v : List Stimulus) : (s.setEnv v).out = s.out := rfl
@[simp] theorem State.setEnv_seq (s : State) (v : List Stimulus) : (s.setEnv v).seq = s.seq := rfl
@[simp] theorem State.setEnv_dly (s : State) (v : List Stimulus) : (s.setEnv v).dly = s.dly := rfl
@[simp] theorem State.setEnv_preqLast (s : State) (v : List Stimulus) : (s.setEnv v).preqLast = s.preqLast := rfl
@[simp] theorem State.setEnv_framing (s : State) (v : List Stimulus) : (s.setEnv v).framing = s.framing := rfl
@[simp] theorem State.setEnv_preq (s : State) (v : List Stimulus) : (s.setEnv v).preq = s.preq := rfl
@[simp] theorem State.setEnv_edge (s : State) (v : List Stimulus) : (s.setEnv v).edge = s.edge := rfl
@[simp] theorem State.setEnv_env (s : State) (v : List Stimulus) : (s.setEnv v).env = v := rfl
@[simp] theorem State.setEnv_overheads (s : State) (v : List Stimulus) : (s.setEnv v).overheads = s.overheads := rfl
@[simp] theorem State.setEnv_iter (s : State) (v : List Stimulus) : (s.setEnv v).iter = s.iter := rfl
@[simp] theorem State.setEnv_now (s : State) (v : List Stimulus) : (s.setEnv v).now = s.now := rfl
@[simp] theorem State.setEnv_log (s : State) (v : List Stimulus) : (s.setEnv v).log = s.log := rfl
@[simp] theorem State.setOverheads_prev (s : State) (v : List Nat) : (s.setOverheads v).prev = s.prev := rfl
@[simp] theorem State.setOverheads_cur (s : State) (v : List Nat) : (s.setOverheads v).cur = s.cur := rfl
@[simp] theorem State.setOverheads_exp (s : State) (v : List Nat) : (s.setOverheads v).exp = s.exp := rfl
@[simp] theorem State.setOverheads_pcnt (s : State) (v : List Nat) : (s.setOverheads v).pcnt = s.pcnt := rfl
@[simp] theorem State.setOverheads_phase (s : State) (v : List Nat) : (s.setOverheads v).phase = s.phase := rfl
@[simp] theorem State.setOverheads_out (s : State) (v : List Nat) : (s.setOverheads v).out = s.out := rfl
@[simp] theorem State.setOverheads_seq (s : State) (v : List Nat) : (s.setOverheads v).seq = s.seq := rfl
@[simp] theorem State.setOverheads_dly (s : State) (v : List Nat) : (s.setOverheads v).dly = s.dly := rfl
@[simp] theorem State.setOverheads_preqLast (s : State) (v : List Nat) : (s.setOverheads v).preqLast = s.preqLast := rfl
@[simp] theorem State.setOverheads_framing (s : State) (v : List Nat) : (s.setOverheads v).framing = s.framing := rfl
@[simp] theorem State.setOverheads_preq (s : State) (v : List Nat) : (s.setOverheads v).preq = s.preq := rfl
@[simp] theorem State.setOverheads_edge (s : State) (v : List Nat) : (s.setOverheads v).edge = s.edge := rfl
@[simp] theorem State.setOverheads_env (s : State) (v : List Nat) : (s.setOverheads v).env = s.env := rfl
@[simp] theorem State.setOverheads_overheads (s : State) (v : List Nat) : (s.setOverheads v).overheads = v := rfl
@[simp] theorem State.setOverheads_iter (s : State) (v : List Nat) : (s.setOverheads v).iter = s.iter := rfl
@[simp] theorem State.setOverheads_now (s : State) (v : List Nat) : (s.setOverheads v).now = s.now := rfl
@[simp] theorem State.setOverheads_log (s : State) (v : List Nat) : (s.setOverheads v).log = s.log := rfl
@[simp] theorem State.setIter_prev (s : State) (v : Nat) : (s.setIter v).prev = s.prev := rfl
@[simp] theorem State.setIter_cur (s : State) (v : Nat) : (s.setIter v).cur = s.cur := rfl
@[simp] theorem State.setIter_exp (s : State) (v : Nat) : (s.setIter v).exp = s.exp := rfl
@[simp] theorem State.setIter_pcnt (s : State) (v : Nat) : (s.setIter v).pcnt = s.pcnt := rfl
@[simp] theorem State.setIter_phase (s : State) (v : Nat) : (s.setIter v).phase = s.phase := rfl
@[simp] theorem State.setIter_out (s : State) (v : Nat) : (s.setIter v).out = s.out := rfl
@[simp] theorem State.setIter_seq (s : State) (v : Nat) : (s.setIter v).seq = s.seq := rfl
@[simp] theorem State.setIter_dly (s : State) (v : Nat) : (s.setIter v).dly = s.dly := rfl
@[simp] theorem State.setIter_preqLast (s : State) (v : Nat) : (s.setIter v).preqLast = s.preqLast := rfl
@[simp] theorem State.setIter_framing (s : State) (v : Nat) : (s.setIter v).framing = s.framing := rfl
@[simp] theorem State.setIter_preq (s : State) (v : Nat) : (s.setIter v).preq = s.preq := rfl
@[simp] theorem State.setIter_edge (s : State) (v : Nat) : (s.setIter v).edge = s.edge := rfl
@[simp] theorem State.setIter_env (s : State) (v : Nat) : (s.setIter v).env = s.env := rfl
@[simp] theorem State.setIter_overheads (s : State) (v : Nat) : (s.setIter v).overheads = s.overheads := rfl
@[simp] theorem State.setIter_iter (s : State) (v : Nat) : (s.setIter v).iter = v := rfl
@[simp] theorem State.setIter_now (s : State) (v : Nat) : (s.setIter v).now = s.now := rfl
@[simp] theorem State.setIter_log (s : State) (v : Nat) : (s.setIter v).log = s.log := rfl
@[simp] theorem State.setNow_prev (s : State) (v : Nat) : (s.setNow v).prev = s.prev := rfl
@[simp] theorem State.setNow_cur (s : State) (v : Nat) : (s.setNow v).cur = s.cur := rfl
@[simp] theorem State.setNow_exp (s : State) (v : Nat) : (s.setNow v).exp = s.exp := rfl
@[simp] theorem State.setNow_pcnt (s : State) (v : Nat) : (s.setNow v).pcnt = s.pcnt := rfl
@[simp] theorem State.setNow_phase (s : State) (v : Nat) : (s.setNow v).phase = s.phase := rfl
@[simp] theorem State.setNow_out (s : State) (v : Nat) : (s.setNow v).out = s.out := rfl
@[simp] theorem State.setNow_seq (s : State) (v : Nat) : (s.setNow v).seq = s.seq := rfl
@[simp] theorem State.setNow_dly (s : State) (v : Nat) : (s.setNow v).dly = s.dly := rfl
@[simp] theorem State.setNow_preqLast (s : State) (v : Nat) : (s.setNow v).preqLast = s.preqLast := rfl
@[simp] theorem State.setNow_framing (s : State) (v : Nat) : (s.setNow v).framing = s.framing := rfl
@[simp] theorem State.setNow_preq (s : State) (v : Nat) : (s.setNow v).preq = s.preq := rfl
@[simp] theorem State.setNow_edge (s : State) (v : Nat) : (s.setNow v).edge = s.edge := rfl
@[simp] theorem State.setNow_env (s : State) (v : Nat) : (s.setNow v).env = s.env := rfl
@[simp] theorem State.setNow_overheads (s : State) (v : Nat) : (s.setNow v).overheads = s.overheads := rfl
@[simp] theorem State.setNow_iter (s : State) (v : Nat) : (s.setNow v).iter = s.iter := rfl
@[simp] theorem State.setNow_now (s : State) (v : Nat) : (s.setNow v).now = v := rfl
@[simp] theorem State.setNow_log (s : State) (v : Nat) : (s.setNow v).log = s.log := rfl
@[simp] theorem State.setLog_prev (s : State) (v : List TraceEvent) : (s.setLog v).prev = s.prev := rfl
@[simp] theorem State.setLog_cur (s : State) (v : List TraceEvent) : (s.setLog v).cur = s.cur := rfl
@[simp] theorem State.setLog_exp (s : State) (v : List TraceEvent) : (s.setLog v).exp = s.exp := rfl
@[simp] theorem State.setLog_pcnt (s : State) (v : List TraceEvent) : (s.setLog v).pcnt = s.pcnt := rfl
@[simp] theorem State.setLog_phase (s : State) (v : List TraceEvent) : (s.setLog v).phase = s.phase := rfl
@[simp] theorem State.setLog_out (s : State) (v : List TraceEvent) : (s.setLog v).out = s.out := rfl
@[simp] theorem State.setLog_seq (s : State) (v : List TraceEvent) : (s.setLog v).seq = s.seq := rfl
@[simp] theorem State.setLog_dly (s : State) (v : List TraceEvent) : (s.setLog v).dly = s.dly := rfl
@[simp] theorem State.setLog_preqLast (s : State) (v : List TraceEvent) : (s.setLog v).preqLast = s.preqLast := rfl
@[simp] theorem State.setLog_framing (s : State) (v : List TraceEvent) : (s.setLog v).framing = s.framing := rfl
@[simp] theorem State.setLog_preq (s : State) (v : List TraceEvent) : (s.setLog v).preq = s.preq := rfl
@[simp] theorem State.setLog_edge (s : State) (v : List TraceEvent) : (s.setLog v).edge = s.edge := rfl
@[simp] theorem State.setLog_env (s : State) (v : List TraceEvent) : (s.setLog v).env = s.env := rfl
@[simp] theorem State.setLog_overheads (s : State) (v : List TraceEvent) : (s.setLog v).overheads = s.overheads := rfl
@[simp] theorem State.setLog_iter (s : State) (v : List TraceEvent) : (s.setLog v).iter = s.iter := rfl
@[simp] theorem State.setLog_now (s : State) (v : List TraceEvent) : (s.setLog v).now = s.now := rfl
@[simp] theorem State.setLog_log (s : State) (v : List TraceEvent) : (s.setLog v).log = v := rfl

end Sys2Proof.Machine
end

