-- ==== Sys2Proof/Laws/Ops.lean ====
section
/-! SUPPORT. What each shared operation does and leaves alone, said once. -/

namespace Sys2Proof

@[simp] theorem Level.not_not (v : Level) : v.not.not = v := by cases v <;> rfl

@[simp] theorem Level.ofBit_bit (v : Level) : Level.ofBit v.bit = v := by cases v <;> rfl

@[simp] theorem Level.bit_ofBit (b : Bool) : (Level.ofBit b).bit = b := by cases b <;> rfl

theorem Level.not_ne (v : Level) : v ≠ v.not := by cases v <;> decide

namespace Machine

/-! ### The output latch -/

@[simp] theorem Outputs.toggle_get (o : Outputs) (lines : LineSet) (l : OutLine) :
    (o.toggle lines).get l = if lines.has l then (o.get l).not else o.get l := by
  cases l <;> rfl

@[simp] theorem Outputs.drive_get (o : Outputs) (level : Level) (lines : LineSet) (l : OutLine) :
    (o.drive level lines).get l = if lines.has l then level else o.get l := by
  cases l <;> rfl

theorem Outputs.ext_get {o o' : Outputs} (h : ∀ l, o.get l = o'.get l) : o = o' := by
  obtain ⟨a, b, c, d⟩ := o
  obtain ⟨a', b', c', d'⟩ := o'
  have h0 := h .sioClk
  have h1 := h .spiClk
  have h2 := h .sync
  have h3 := h .flow
  simp only [Outputs.get] at h0 h1 h2 h3
  simp [h0, h1, h2, h3]

/-! ### Emission -/

theorem emit_eq (s : State) (changes : List (OutLine × Level)) :
    emit s changes = { s with log := (emit s changes).log } := by
  unfold emit
  split <;> rfl

theorem emit_log (s : State) (changes : List (OutLine × Level)) :
    (emit s changes).log =
      if changes.isEmpty then s.log else { time := s.now, changes := changes } :: s.log := by
  unfold emit
  split <;> rfl

/-- A write of the output latch changes the latch and the trace and nothing else. -/
theorem latchOutputs_eq (s : State) (lines : LineSet) (after : Outputs) :
    latchOutputs s lines after = { s with out := after, log := (latchOutputs s lines after).log } := by
  unfold latchOutputs
  rw [emit_eq]
  rfl

theorem latchOutputs_log (s : State) (lines : LineSet) (after : Outputs) :
    (latchOutputs s lines after).log =
      if (lineChanges lines s.out after).isEmpty then s.log
      else { time := s.now, changes := lineChanges lines s.out after } :: s.log := by
  simp [latchOutputs, emit_log]

/-! ### The polling iteration -/

theorem report_eq (s : State) (c : EdgeClass) : report s c = { s with edge := some c } := rfl

theorem enter_eq (s : State) (act : Program) : enter s act = { s with seq := .run act 0, edge := none } := rfl

theorem spendOverhead_eq (s : State) (t : Nat) :
    spendOverhead s t =
      { s with seq := .poll, dly := t, overheads := laterOverheads s.overheads, iter := s.iter + 1 } := rfl

theorem selectNothing_eq (s : State) :
    selectNothing s =
      { s with
        seq := .poll
        dly := max 1 (iterationOverhead s)
        overheads := laterOverheads s.overheads
        iter := s.iter + 1
        edge := none } := rfl

/-! ### The environment -/

theorem driveLine_framing (s : State) (v : Level) : driveLine s .framing v = { s with framing := v } := rfl

theorem driveLine_preq (s : State) (v : Level) :
    driveLine s .preq v =
      { s with
        pcnt := if s.preqLast = .high ∧ v = .low then s.pcnt + 1 else s.pcnt
        preqLast := v
        preq := v } := by
  unfold driveLine
  by_cases h : s.preqLast = .high ∧ v = .low <;> simp only [h, if_false] <;> rfl

/-- A stimulus writes the lines and the counter and nothing else. -/
theorem environmentStep_eq (s : State) (e : Stimulus) (rest : List Stimulus) :
    environmentStep s e rest =
      { s with
        env := rest
        framing := (environmentStep s e rest).framing
        preq := (environmentStep s e rest).preq
        preqLast := (environmentStep s e rest).preqLast
        pcnt := (environmentStep s e rest).pcnt } := by
  unfold environmentStep
  cases e.line
  · rfl
  · rw [driveLine_preq]
    rfl

/-- Passing a stimulus by touches the stimuli alone. -/
theorem passStimulus_eq (s : State) : passStimulus s = { s with env := (passStimulus s).env } := by
  unfold passStimulus
  split
  · rfl
  · split <;> rfl

theorem passStimulus_length (s : State) : (passStimulus s).env.length = s.env.length := by
  unfold passStimulus
  split
  · rfl
  · rename_i h
    split <;> simp [h]

theorem dueStimulus_some {s : State} {e : Stimulus} {rest : List Stimulus} (h : dueStimulus s = some (e, rest)) :
    s.env = e :: rest ∧ e.due s.now = true := by
  unfold dueStimulus at h
  split at h
  · cases h
  · rename_i he
    split at h
    · cases h
      exact ⟨he, ‹_›⟩
    · cases h

end Machine
end Sys2Proof
end

