-- ==== Sys2Proof/Laws/Step.lean ====
section
/-! SUPPORT. What a step can do, said once: whose turn it is, what each turn answers, and what a micro-operation makes of the state. -/

namespace Sys2Proof.Machine

/-! ### Micro-operations -/

/-- The instructions of format U. -/
def isMicro : Instr → Bool
  | .tgl _ => true
  | .set _ _ => true
  | .dly _ => true
  | .rstexp => true
  | .rstcnt => true
  | .incexp => true
  | .latchprev => true
  | .setphase _ => true
  | _ => false

theorem decodeBare_ok {a : BitVec 5} {i j : Instr} (h : decodeBare a i = .ok j) : j = i := by
  unfold decodeBare at h
  split at h
  · cases h
    rfl
  · cases h

theorem decodeMicro_isMicro {u : MicroWord} {i : Instr} (h : decodeMicro u = .ok i) : isMicro i = true := by
  unfold decodeMicro at h
  simp only at h
  repeat' split at h
  all_goals first
    | (cases h; rfl)
    | (rw [decodeBare_ok h]; rfl)
    | cases h

/-- The wait that stands after a micro-operation. -/
def microDly : Instr → Nat → Nat
  | .dly n, _ => duration n
  | _, d => d

/-- What a micro-operation's meaning answers, field by field. -/
structure MicroEffect (i : Instr) (s t : State) : Prop where
  rows : t.rows = microRows i s.rows
  pcnt : t.pcnt = if i = .rstcnt then 0 else s.pcnt
  dly : t.dly = microDly i s.dly
  log : t.log = microEvents i s.now s.rows ++ s.log
  rest : t =
    { s with prev := t.prev, exp := t.exp, pcnt := t.pcnt, phase := t.phase, out := t.out, dly := t.dly, log := t.log }

theorem microEvents_nil {i : Instr} {t : Nat} {r : Rows} (h : microLines i = {}) : microEvents i t r = [] := by
  simp [microEvents, h, lineChanges, OutLine.all, LineSet.has]

theorem latchOutputs_effect {i : Instr} {s : State} {lines : LineSet} {after : Outputs}
    (hl : microLines i = lines) (ho : microRows i s.rows = { s.rows with out := after }) (hc : i ≠ .rstcnt)
    (hd : ∀ n, i ≠ .dly n) : MicroEffect i s (latchOutputs s lines after) := by
  rw [latchOutputs_eq]
  refine ⟨?_, ?_, ?_, ?_, rfl⟩
  · rw [ho]
    rfl
  · simp [hc]
  · cases i <;> first | rfl | exact absurd rfl (hd _)
  · have hout : (microRows i s.rows).out = after := by rw [ho]
    have hrow : s.rows.out = s.out := rfl
    show (latchOutputs s lines after).log = _
    rw [latchOutputs_log, microEvents, hl, hout, hrow]
    cases lineChanges lines s.out after <;> rfl

/-- Every micro-operation's meaning answers a next state, with this effect. -/
theorem exec_micro {i : Instr} (h : isMicro i = true) (s : State) : ∃ t, exec i s = .next t ∧ MicroEffect i s t := by
  cases i with
  | tgl lines => exact ⟨_, rfl, latchOutputs_effect rfl rfl (by simp) (by simp)⟩
  | set level lines => exact ⟨_, rfl, latchOutputs_effect rfl rfl (by simp) (by simp)⟩
  | dly n => exact ⟨_, rfl, rfl, rfl, rfl, by rw [microEvents_nil rfl]; rfl, rfl⟩
  | rstexp => exact ⟨_, rfl, rfl, rfl, rfl, by rw [microEvents_nil rfl]; rfl, rfl⟩
  | rstcnt => exact ⟨_, rfl, rfl, rfl, rfl, by rw [microEvents_nil rfl]; rfl, rfl⟩
  | incexp => exact ⟨_, rfl, rfl, rfl, rfl, by rw [microEvents_nil rfl]; rfl, rfl⟩
  | latchprev => exact ⟨_, rfl, rfl, rfl, rfl, by rw [microEvents_nil rfl]; rfl, rfl⟩
  | setphase p => exact ⟨_, rfl, rfl, rfl, rfl, by rw [microEvents_nil rfl]; rfl, rfl⟩
  | _ => cases h

/-! ### Whose turn it is -/

/-- What each turn says of the state whose turn it is. -/
inductive TurnOf (s : State) : Turn → Prop where
  | environment {e : Stimulus} {rest : List Stimulus} (due : dueStimulus s = some (e, rest))
      (phase : s.phase ≠ .reserved) : TurnOf s (.environment e rest)
  | poll (due : dueStimulus s = none) (dly : s.dly = 0) (seq : s.seq = .poll) : TurnOf s .poll
  | wait (due : dueStimulus s = none) (dly : s.dly ≠ 0) (phase : s.phase ≠ .reserved) : TurnOf s .wait
  | micro {act : Program} {upc : Nat} {u : MicroWord} {i : Instr} (due : dueStimulus s = none) (dly : s.dly = 0)
      (phase : s.phase ≠ .reserved) (seq : s.seq = .run act upc) (word : (programWords act)[upc]? = some u)
      (decoded : decodeMicro u = .ok i) : TurnOf s (.micro i)
  | iterationEnd {act : Program} (due : dueStimulus s = none) (dly : s.dly = 0) (phase : s.phase ≠ .reserved)
      (seq : s.seq = .run act (programWords act).length) : TurnOf s .iterationEnd
  | refuse (r : Refusal) : TurnOf s (.refuse r)

theorem turnOf_refuseReservedPhase {s : State} {t : Turn} (h : s.phase ≠ .reserved ∨ t = .poll → TurnOf s t) :
    TurnOf s (refuseReservedPhase s t) := by
  unfold refuseReservedPhase
  by_cases hc : s.phase = .reserved ∧ t ≠ .poll
  · rw [if_pos hc]
    exact .refuse _
  · rw [if_neg hc]
    by_cases hp : s.phase = .reserved
    · exact h (.inr (by by_contra ht; exact hc ⟨hp, ht⟩))
    · exact h (.inl hp)

theorem turnOf_microTurn {s : State} {act : Program} {upc : Nat} (due : dueStimulus s = none) (dly : s.dly = 0)
    (phase : s.phase ≠ .reserved) (seq : s.seq = .run act upc) : TurnOf s (microTurn act upc) := by
  unfold microTurn
  cases hu : (programWords act)[upc]? with
  | some u =>
    cases hi : decodeMicro u with
    | ok i => simpa only [hi] using TurnOf.micro due dly phase seq hu hi
    | error e => simpa only [hi] using TurnOf.refuse _
  | none =>
    by_cases hl : upc = (programWords act).length
    · simpa only [if_pos hl] using TurnOf.iterationEnd due dly phase (hl ▸ seq)
    · simpa only [if_neg hl] using TurnOf.refuse _

theorem microTurn_ne_poll (act : Program) (upc : Nat) : microTurn act upc ≠ .poll := by
  unfold microTurn
  split
  · split <;> simp
  · split <;> simp

/-- Every state's turn, with what it says of the state. -/
theorem turnOf (s : State) : TurnOf s (nextTurn s) := by
  unfold nextTurn
  apply turnOf_refuseReservedPhase
  cases hd : dueStimulus s with
  | some x => exact fun hp => .environment hd (by simpa using hp)
  | none =>
    intro hp
    simp only at hp ⊢
    unfold sequencerTurn at hp ⊢
    by_cases hw : s.dly = 0
    · cases hs : s.seq with
      | poll => simpa [hw] using TurnOf.poll hd hw hs
      | run act upc =>
        simp only [hw, hs, ne_eq, not_true_eq_false, if_false, microTurn_ne_poll, or_false] at hp ⊢
        exact turnOf_microTurn hd hw hp hs
    · simp only [hw, ne_eq, not_false_eq_true, if_true, reduceCtorEq, or_false] at hp ⊢
      exact .wait hd hw hp

theorem nextTurn_environment {s : State} {e : Stimulus} {rest : List Stimulus} (hd : dueStimulus s = some (e, rest))
    (hp : s.phase ≠ .reserved) : nextTurn s = .environment e rest := by
  simp [nextTurn, refuseReservedPhase, hd, hp]

theorem nextTurn_poll {s : State} (hd : dueStimulus s = none) (hw : s.dly = 0) (hs : s.seq = .poll) :
    nextTurn s = .poll := by
  simp [nextTurn, refuseReservedPhase, hd, sequencerTurn, hw, hs]

theorem nextTurn_wait {s : State} (hd : dueStimulus s = none) (hw : s.dly ≠ 0) (hp : s.phase ≠ .reserved) :
    nextTurn s = .wait := by
  simp [nextTurn, refuseReservedPhase, hd, sequencerTurn, hw, hp]

theorem nextTurn_micro {s : State} {act : Program} {upc : Nat} {u : MicroWord} {i : Instr}
    (hd : dueStimulus s = none) (hw : s.dly = 0) (hp : s.phase ≠ .reserved) (hs : s.seq = .run act upc)
    (hu : (programWords act)[upc]? = some u) (hi : decodeMicro u = .ok i) : nextTurn s = .micro i := by
  simp [nextTurn, refuseReservedPhase, hd, sequencerTurn, hw, hp, hs, microTurn, hu, hi]

theorem nextTurn_iterationEnd {s : State} {act : Program} (hd : dueStimulus s = none) (hw : s.dly = 0)
    (hp : s.phase ≠ .reserved) (hs : s.seq = .run act (programWords act).length) : nextTurn s = .iterationEnd := by
  simp [nextTurn, refuseReservedPhase, hd, sequencerTurn, hw, hp, hs, microTurn]

/-! ### The polling step -/

theorem edgeInstr_effect (s : State) : exec (edgeInstr s) s = .next (report s (classify s.prev s.cur)) := by
  unfold edgeInstr edgeWord
  cases s.prev <;> cases s.cur <;> rfl

theorem sampled_eq (s : State) : sampled s = { s with cur := s.framing, env := (passStimulus s).env } := by
  unfold sampled
  rw [passStimulus_eq]
  rfl

/-- The polling step: the classification is reported, then the dispatch word's instruction runs. -/
theorem pollStep_eq (s : State) :
    pollStep s =
      exec (decodeDispatch (dispatchWordOf s.phase s.prev s.framing (pendOf s.pcnt s.exp)))
        { s with cur := s.framing, edge := some (classify s.prev s.framing), env := (passStimulus s).env } := by
  unfold pollStep
  rw [edgeInstr_effect, sampled_eq]
  rfl

theorem advanced_run {s : State} {act : Program} {upc : Nat} (h : s.seq = .run act upc) :
    advanced s = { s with seq := .run act (upc + 1), env := (passStimulus s).env } := by
  unfold advanced
  rw [h, passStimulus_eq]
  rfl

theorem tick_eq (s : State) :
    tick s = { s with dly := s.dly - 1, now := s.now + 1, env := (passStimulus s).env } := by
  unfold tick
  rw [passStimulus_eq]
  rfl

theorem endIteration_eq (s : State) :
    endIteration s =
      { s with
        seq := .poll
        dly := iterationOverhead s
        overheads := laterOverheads s.overheads
        iter := s.iter + 1
        env := (passStimulus s).env } := by
  unfold endIteration
  rw [passStimulus_eq]
  rfl

/-- A dispatch instruction enters one of the three micro-programs, does nothing, or is refused. -/
theorem dispatch_effect (d : DispatchWord) (s : State) :
    match selectedAction (decodeDispatch d) with
    | some .start => exec (decodeDispatch d) s = .next (enter s .start)
    | some .byte => exec (decodeDispatch d) s = .next (enter s .byte)
    | some .endAction => exec (decodeDispatch d) s = .next (enter s .endAction)
    | some .nop => exec (decodeDispatch d) s = .next (selectNothing s)
    | none => ∃ r, exec (decodeDispatch d) s = .refused r := by
  unfold decodeDispatch
  simp only
  repeat' split
  all_goals first
    | rfl
    | exact ⟨_, rfl⟩
    | simp_all [selectedAction]

/-- The dispatch map agrees with the pseudocode of the dispatch. -/
theorem selectedAction_dispatchWordOf (phase : Phase) (prev cur : Level) (pend : Bool) :
    selectedAction (decodeDispatch (dispatchWordOf phase prev cur pend)) =
      dispatch phase (classify prev cur) pend := by
  cases phase <;> cases prev <;> cases cur <;> cases pend <;> rfl

end Sys2Proof.Machine
end

