-- ==== Sys2Proof/Laws/Run.lean ====
section
/-! SUPPORT. Runs of the machine: how they compose, and what a stretch of waits and stimuli does between two steps of the sequencer. -/

namespace Sys2Proof.Machine

theorem run_zero (s : State) : Sys2Proof.core.run 0 s = .next s := rfl

theorem run_succ {s t : State} (h : step s = .next t) (k : Nat) :
    Sys2Proof.core.run (k + 1) s = Sys2Proof.core.run k t := by
  have h' : Sys2Proof.core.step s = .next t := h
  simp only [Host.Core.run, h']

theorem run_one {s t : State} (h : step s = .next t) : Sys2Proof.core.run 1 s = .next t := by
  rw [run_succ h, run_zero]

/-- A run that answers a next state goes on as a run of that state. -/
theorem run_add {a : Nat} : ∀ {s t : State} (b : Nat), Sys2Proof.core.run a s = .next t →
    Sys2Proof.core.run (a + b) s = Sys2Proof.core.run b t := by
  induction a with
  | zero =>
    intro s t b h
    rw [run_zero] at h
    cases h
    rw [Nat.zero_add]
  | succ a ih =>
    intro s t b h
    cases hs : step s with
    | next u =>
      rw [run_succ hs] at h
      rw [Nat.add_right_comm, run_succ hs]
      exact ih b h
    | fault r => cases r
    | refused r =>
      have : Sys2Proof.core.run (a + 1) s = .refused r := by
        have h' : Sys2Proof.core.step s = .refused r := hs
        simp only [Host.Core.run, h']
      rw [this] at h
      cases h

/-- A property that every step keeps, in states whose every step answers, holds along every run. -/
theorem run_invariant {P : State → Prop} (h : ∀ s, P s → ∃ t, step s = .next t ∧ P t) :
    ∀ k s, P s → ∃ t, Sys2Proof.core.run k s = .next t ∧ P t := by
  intro k
  induction k with
  | zero => exact fun s hs => ⟨s, run_zero s, hs⟩
  | succ k ih =>
    intro s hs
    obtain ⟨u, hu, hP⟩ := h s hs
    obtain ⟨t, ht, hT⟩ := ih u hP
    exact ⟨t, by rw [run_succ hu]; exact ht, hT⟩

/-! ### The step, turn by turn -/

theorem step_environment {s : State} {e : Stimulus} {rest : List Stimulus} (h : nextTurn s = .environment e rest) :
    step s = .next (environmentStep s e rest) := by
  unfold step
  rw [h]

theorem step_wait {s : State} (h : nextTurn s = .wait) : step s = .next (tick s) := by
  unfold step
  rw [h]

theorem step_iterationEnd {s : State} (h : nextTurn s = .iterationEnd) : step s = .next (endIteration s) := by
  unfold step
  rw [h]

theorem step_micro {s : State} {i : Instr} (h : nextTurn s = .micro i) : step s = exec i (advanced s) := by
  unfold step
  rw [h]

theorem step_poll {s : State} (h : nextTurn s = .poll) : step s = pollStep s := by
  unfold step
  rw [h]

theorem step_refuse {s : State} {r : Refusal} (h : nextTurn s = .refuse r) : step s = .refused r := by
  unfold step
  rw [h]

/-- The state a poll point dispatches from. -/
def polled (s : State) : State :=
  { s with cur := s.framing, edge := some (classify s.prev s.framing), env := (passStimulus s).env }

/-- What an action's selection makes of the state. -/
def selected (a : Action) (s : State) : State :=
  match a with
  | .nop => selectNothing s
  | .start => enter s .start
  | .byte => enter s .byte
  | .endAction => enter s .endAction

/-- A poll point whose dispatch selects an action answers what the selection makes of the sampled state. -/
theorem step_poll_action {s : State} {a : Action} (h : nextTurn s = .poll)
    (ha : dispatch s.phase (classify s.prev s.framing) (pendOf s.pcnt s.exp) = some a) :
    step s = .next (selected a (polled s)) := by
  rw [step_poll h, pollStep_eq]
  have e := dispatch_effect (dispatchWordOf s.phase s.prev s.framing (pendOf s.pcnt s.exp)) (polled s)
  rw [selectedAction_dispatchWordOf, ha] at e
  cases a <;> exact e

/-- A poll point whose phase has no action is refused. -/
theorem step_poll_refused {s : State} (h : nextTurn s = .poll)
    (ha : dispatch s.phase (classify s.prev s.framing) (pendOf s.pcnt s.exp) = none) : ∃ r, step s = .refused r := by
  rw [step_poll h, pollStep_eq]
  have e := dispatch_effect (dispatchWordOf s.phase s.prev s.framing (pendOf s.pcnt s.exp)) (polled s)
  rw [selectedAction_dispatchWordOf, ha] at e
  exact e

/-- Everything a step can do that answers a next state. -/
inductive StepTo (s t : State) : Prop where
  | environment {e : Stimulus} {rest : List Stimulus} (turn : nextTurn s = .environment e rest)
      (due : dueStimulus s = some (e, rest)) (eq : t = environmentStep s e rest)
  | wait (turn : nextTurn s = .wait) (dly : s.dly ≠ 0) (eq : t = tick s)
  | iterationEnd {act : Program} (turn : nextTurn s = .iterationEnd) (dly : s.dly = 0)
      (seq : s.seq = .run act (programWords act).length) (eq : t = endIteration s)
  | micro {act : Program} {upc : Nat} {u : MicroWord} {i : Instr} (turn : nextTurn s = .micro i) (dly : s.dly = 0)
      (seq : s.seq = .run act upc) (word : (programWords act)[upc]? = some u) (decoded : decodeMicro u = .ok i)
      (run : exec i (advanced s) = .next t) (effect : MicroEffect i (advanced s) t)
  | poll {a : Action} (turn : nextTurn s = .poll) (dly : s.dly = 0) (seq : s.seq = .poll)
      (action : dispatch s.phase (classify s.prev s.framing) (pendOf s.pcnt s.exp) = some a)
      (eq : t = selected a (polled s))

/-- The one inversion of the step: what it can do, by whose turn it is. -/
theorem step_cases {s t : State} (h : step s = .next t) : StepTo s t := by
  have ht := turnOf s
  cases hn : nextTurn s with
  | environment e rest =>
    rw [hn] at ht
    cases ht with
    | environment due phase =>
      rw [step_environment hn] at h
      cases h
      exact .environment hn due rfl
  | wait =>
    rw [hn] at ht
    cases ht with
    | wait due dly phase =>
      rw [step_wait hn] at h
      cases h
      exact .wait hn dly rfl
  | iterationEnd =>
    rw [hn] at ht
    cases ht with
    | iterationEnd due dly phase seq =>
      rw [step_iterationEnd hn] at h
      cases h
      exact .iterationEnd hn dly seq rfl
  | micro i =>
    rw [hn] at ht
    cases ht with
    | micro due dly phase seq word decoded =>
      rw [step_micro hn] at h
      obtain ⟨a, ha, eff⟩ := exec_micro (decodeMicro_isMicro decoded) (advanced s)
      have hat : a = t := by
        rw [ha] at h
        cases h
        rfl
      exact .micro hn dly seq word decoded h (hat ▸ eff)
  | poll =>
    rw [hn] at ht
    cases ht with
    | poll due dly seq =>
      cases ha : dispatch s.phase (classify s.prev s.framing) (pendOf s.pcnt s.exp) with
      | none =>
        obtain ⟨r, hr⟩ := step_poll_refused hn ha
        rw [hr] at h
        cases h
      | some a =>
        rw [step_poll_action hn ha] at h
        cases h
        exact .poll hn dly seq ha rfl
  | refuse r =>
    rw [step_refuse hn] at h
    cases h

/-! ### Between two steps of the sequencer -/

/-- What waits and stimuli leave as it is. -/
structure Held (s t : State) : Prop where
  rows : t.rows = s.rows
  seq : t.seq = s.seq
  log : t.log = s.log
  edge : t.edge = s.edge
  overheads : t.overheads = s.overheads
  iter : t.iter = s.iter
  quiet : s.env = [] → t.env = [] ∧ t.pcnt = s.pcnt ∧ t.framing = s.framing ∧ t.preq = s.preq ∧ t.preqLast = s.preqLast

theorem Held.refl (s : State) : Held s s := ⟨rfl, rfl, rfl, rfl, rfl, rfl, fun h => ⟨h, rfl, rfl, rfl, rfl⟩⟩

theorem Held.trans {s t u : State} (h : Held s t) (h' : Held t u) : Held s u where
  rows := h'.rows.trans h.rows
  seq := h'.seq.trans h.seq
  log := h'.log.trans h.log
  edge := h'.edge.trans h.edge
  overheads := h'.overheads.trans h.overheads
  iter := h'.iter.trans h.iter
  quiet := fun hs => by
    obtain ⟨h1, h2, h3, h4, h5⟩ := h.quiet hs
    obtain ⟨g1, g2, g3, g4, g5⟩ := h'.quiet h1
    exact ⟨g1, g2.trans h2, g3.trans h3, g4.trans h4, g5.trans h5⟩

theorem environmentStep_held {s : State} {e : Stimulus} {rest : List Stimulus} (h : s.env ≠ []) :
    Held s (environmentStep s e rest) := by
  rw [environmentStep_eq]
  exact ⟨rfl, rfl, rfl, rfl, rfl, rfl, fun hs => absurd hs h⟩

theorem passStimulus_nil {s : State} (h : s.env = []) : (passStimulus s).env = [] := by
  have := passStimulus_length s
  rw [h] at this
  exact List.eq_nil_of_length_eq_zero this

theorem tick_held (s : State) : Held s (tick s) := by
  rw [tick_eq]
  exact ⟨rfl, rfl, rfl, rfl, rfl, rfl, fun hs => ⟨passStimulus_nil hs, rfl, rfl, rfl, rfl⟩⟩

/-- A run of waits and stimuli that ends with no wait running and no stimulus due: the present wait runs out after exactly its time, the
rows, the position and the trace hold, and no poll point is met on the way. -/
structure Settled (s : State) (k : Nat) (t : State) : Prop where
  run : Sys2Proof.core.run k s = .next t
  dly : t.dly = 0
  due : dueStimulus t = none
  now : t.now = s.now + s.dly
  held : Held s t
  bound : k + t.env.length ≤ s.dly + s.env.length
  noPoll : ∀ j u, j < k → Sys2Proof.core.run j s = .next u → nextTurn u ≠ .poll
  along : ∀ j, j ≤ k → ∃ u : State, Sys2Proof.core.run j s = .next u ∧ Held s u ∧ u.now + u.dly = s.now + s.dly

/-- Whatever the environment does, the present wait runs out after exactly its time. -/
theorem settles (s : State) (hp : s.phase ≠ .reserved) : ∃ k t, Settled s k t := by
  generalize hn : s.dly + s.env.length = n
  induction n using Nat.strong_induction_on generalizing s with
  | _ n ih =>
    have onward : ∀ s' : State, step s = .next s' → nextTurn s ≠ .poll → Held s s' →
        s'.now + s'.dly = s.now + s.dly → s'.dly + s'.env.length + 1 ≤ n →
        ∃ k t, Settled s k t := fun s' hs hne hh hnow hlen => by
      have hp' : s'.phase ≠ .reserved := by
        have : s'.phase = s.phase := congrArg Rows.phase hh.rows
        rw [this]
        exact hp
      obtain ⟨k, t, hr, hd, hdue, ht, hheld, hk, hpoll, halong⟩ := ih (s'.dly + s'.env.length) (by omega) s' hp' rfl
      refine ⟨k + 1, t, by rw [run_succ hs]; exact hr, hd, hdue, by omega, hh.trans hheld, by omega, ?_, ?_⟩
      · intro j u hj hu
        cases j with
        | zero =>
          rw [run_zero] at hu
          cases hu
          exact hne
        | succ j =>
          rw [run_succ hs] at hu
          exact hpoll j u (by omega) hu
      · intro j hj
        cases j with
        | zero => exact ⟨s, run_zero s, Held.refl s, rfl⟩
        | succ j =>
          obtain ⟨u, hu, huh, hun⟩ := halong j (by omega)
          exact ⟨u, by rw [run_succ hs]; exact hu, hh.trans huh, by omega⟩
    cases hdue : dueStimulus s with
    | some x =>
      obtain ⟨e, rest⟩ := x
      have hturn := nextTurn_environment hdue hp
      have henv := (dueStimulus_some hdue).1
      refine onward _ (step_environment hturn) (by rw [hturn]; simp)
        (environmentStep_held (by rw [henv]; simp)) ?_ ?_
      · rw [environmentStep_eq]
      · rw [environmentStep_eq]
        rw [henv] at hn
        simp only [List.length_cons] at hn
        simp only
        omega
    | none =>
      by_cases hw : s.dly = 0
      · refine ⟨0, s, run_zero s, hw, hdue, by omega, Held.refl s, by omega, by omega, fun j hj => ?_⟩
        obtain rfl : j = 0 := by omega
        exact ⟨s, run_zero s, Held.refl s, rfl⟩
      · have hturn := nextTurn_wait hdue hw hp
        refine onward _ (step_wait hturn) (by rw [hturn]; simp) (tick_held s) ?_ ?_
        · rw [tick_eq]
          simp only
          omega
        · rw [tick_eq]
          simp only [passStimulus_length]
          omega

/-! ### A micro-program from a position to its end -/

theorem decodeMicro_setphase {u : MicroWord} {p : Phase} (h : decodeMicro u = .ok (.setphase p)) : p ≠ .reserved := by
  have key : ∀ u : MicroWord, decodeMicro u ≠ .ok (.setphase .reserved) := by decide
  rintro rfl
  exact key u h

theorem microRows_phase {u : MicroWord} {i : Instr} (h : decodeMicro u = .ok i) {r : Rows} (hr : r.phase ≠ .reserved) :
    (microRows i r).phase ≠ .reserved := by
  cases i with
  | setphase p => exact decodeMicro_setphase h
  | _ => exact hr

/-- The part of a micro-program from a position on runs to the end, whatever the environment does. -/
theorem runs_to_end (act : Program) (rest : List MicroWord) :
    ∀ (s : State) (upc : Nat), (programWords act).drop upc = rest → (∀ u ∈ rest, ∃ i, decodeMicro u = .ok i) →
      s.seq = .run act upc → s.dly = 0 → dueStimulus s = none → s.phase ≠ .reserved →
      ∃ k t, Sys2Proof.core.run k s = .next t ∧ t.seq = .run act (upc + rest.length) ∧ t.dly = 0 ∧
        dueStimulus t = none ∧ t.phase ≠ .reserved ∧
        t.now = s.now + runTime rest ∧ t.rows = runRows rest s.rows ∧
        t.log = (runEvents rest s.now s.rows).reverse ++ s.log ∧
        k + t.env.length ≤ rest.length + runTime rest + s.env.length ∧
        (s.env = [] → t.env = [] ∧
          t.pcnt = if 0x80#8 ∈ rest then 0 else s.pcnt) ∧
        t.overheads = s.overheads ∧ t.iter = s.iter ∧
        ∀ j u, j < k → Sys2Proof.core.run j s = .next u → nextTurn u ≠ .poll := by
  induction rest with
  | nil =>
    intro s upc _ _ hs hw hd hp
    exact ⟨0, s, run_zero s, by simpa using hs, hw, hd, hp, by simp [runTime], rfl, by simp [runEvents], by simp [runTime],
      fun h => ⟨h, by simp⟩, rfl, rfl, by omega⟩
  | cons u us ih =>
    intro s upc hdrop hdec hs hw hd hp
    obtain ⟨i, hi⟩ := hdec u (by simp)
    have hu : (programWords act)[upc]? = some u := by
      have := congrArg (fun l : List MicroWord => l[0]?) hdrop
      simpa using this
    have hturn := nextTurn_micro hd hw hp hs hu hi
    obtain ⟨a, ha, eff⟩ := exec_micro (decodeMicro_isMicro hi) (advanced s)
    have hstep : step s = .next a := (step_micro hturn).trans ha
    have hadv := advanced_run hs
    have harows : a.rows = microRows i s.rows := by rw [eff.rows, hadv]; rfl
    have haseq : a.seq = .run act (upc + 1) := by rw [eff.rest, hadv]
    have hanow : a.now = s.now := by rw [eff.rest, hadv]
    have haenv : a.env.length = s.env.length := by rw [eff.rest, hadv]; exact passStimulus_length s
    have halog : a.log = microEvents i s.now s.rows ++ s.log := by rw [eff.log, hadv]; rfl
    have hadly : a.dly = microTime i := by
      rw [eff.dly]
      have : (advanced s).dly = 0 := by rw [hadv]; exact hw
      rw [this]
      cases i <;> rfl
    have haphase : a.phase ≠ .reserved := by
      have : a.phase = (microRows i s.rows).phase := congrArg Rows.phase harows
      rw [this]
      exact microRows_phase hi hp
    obtain ⟨k1, b, hr1, hb0, hbd, hbnow, hheld, hk1, hpoll1, -⟩ := settles a haphase
    have hbphase : b.phase ≠ .reserved := by
      have : b.phase = a.phase := congrArg Rows.phase hheld.rows
      rw [this]
      exact haphase
    have hdrop' : (programWords act).drop (upc + 1) = us := by
      have := congrArg List.tail hdrop
      simpa [List.tail_drop] using this
    obtain ⟨k2, t, hr2, hts, htw, htd, htp, htnow, htrows, htlog, hk2, hquiet, htov, htit, hpoll2⟩ :=
      ih b (upc + 1) hdrop' (fun v hv => hdec v (by simp [hv])) (hheld.seq.trans haseq) hb0 hbd hbphase
    have hbrows : b.rows = microRows i s.rows := hheld.rows.trans harows
    have hbnow' : b.now = s.now + microTime i := by rw [hbnow, hanow, hadly]
    have haov : a.overheads = s.overheads := by rw [eff.rest, hadv]
    have hait : a.iter = s.iter := by rw [eff.rest, hadv]
    refine ⟨(k1 + k2) + 1, t, ?_, ?_, htw, htd, htp, ?_, ?_, ?_, ?_, ?_, htov.trans (hheld.overheads.trans haov),
      htit.trans (hheld.iter.trans hait), ?_⟩
    · rw [run_succ hstep, run_add k2 hr1, hr2]
    · rw [hts]
      simp only [List.length_cons]
      congr 1
      omega
    · simp only [runTime, hi]
      omega
    · simp only [runRows, hi]
      rw [htrows, hbrows]
    · simp only [runEvents, hi]
      have hone : (microEvents i s.now s.rows).reverse = microEvents i s.now s.rows := by
        unfold microEvents
        split <;> rfl
      rw [htlog, hbrows, hbnow', hheld.log, halog, List.reverse_append, hone, List.append_assoc]
    · simp only [runTime, hi, List.length_cons]
      omega
    · intro henv
      have haenv0 : a.env = [] := List.eq_nil_of_length_eq_zero (by rw [haenv, henv]; rfl)
      obtain ⟨hbenv, hbpcnt, -⟩ := hheld.quiet haenv0
      obtain ⟨htenv, htpcnt⟩ := hquiet hbenv
      refine ⟨htenv, ?_⟩
      have hapcnt : a.pcnt = if i = .rstcnt then 0 else s.pcnt := by rw [eff.pcnt, hadv]
      have hword : i = .rstcnt ↔ 0x80#8 = u := by
        have key : ∀ v : MicroWord, decodeMicro v = .ok .rstcnt ↔ 0x80#8 = v := by decide
        rw [← key u, hi]
        simp
      rw [htpcnt, hbpcnt, hapcnt]
      by_cases hm : 0x80#8 ∈ us
      · simp [hm]
      · by_cases hv : 0x80#8 = u
        · rw [if_neg hm, if_pos (hword.mpr hv), if_pos (by rw [hv]; exact List.mem_cons_self ..)]
        · rw [if_neg hm, if_neg (fun h => hv (hword.mp h)), if_neg (by simp [hm, hv])]
    · intro j w hj hw'
      cases j with
      | zero =>
        rw [run_zero] at hw'
        cases hw'
        rw [hturn]
        simp
      | succ j =>
        rw [run_succ hstep] at hw'
        by_cases hlt : j < k1
        · exact hpoll1 j w hlt hw'
        · have hj' : j = k1 + (j - k1) := by omega
          rw [hj', run_add (j - k1) hr1] at hw'
          exact hpoll2 (j - k1) w (by omega) hw'

end Sys2Proof.Machine
end

