-- ==== Sys2Proof/Laws/Actions.lean ====
section
/-! SUPPORT. What the three micro-programs make of the rows, the latch and the trace; what a step that is no micro-operation leaves; the
way from the end of a micro-program back to the poll point. -/

set_option maxRecDepth 8000

namespace Sys2Proof.Machine

/-! ### The words of the micro-programs -/

theorem startWords_length : startWords.length = 11 := by decide

theorem byteWords_length : byteWords.length = 49 := by decide

theorem endWords_length : endWords.length = 71 := by decide

theorem programWords_decode {act : Program} (h : act = .start ∨ act = .byte ∨ act = .endAction) :
    ∀ u ∈ programWords act, ∃ i, decodeMicro u = .ok i := by
  have key : ∀ u ∈ startWords ++ byteWords ++ endWords, (decodeMicro u).toBool = true := by decide
  intro u hu
  have hm : u ∈ startWords ++ byteWords ++ endWords := by
    rcases h with rfl | rfl | rfl <;> simp [programWords] at hu <;> simp [hu]
  have hb := key u hm
  cases hd : decodeMicro u with
  | ok i => exact ⟨i, rfl⟩
  | error e =>
    rw [hd] at hb
    cases hb

/-- Where a word stands in the micro-programs is a check of their first 71 positions. -/
theorem occursOnlyAt_of_check {u : MicroWord} {places : List (Program × Nat)}
    (h : ∀ k, k < 71 → (startWords[k]? = some u ↔ (Program.start, k) ∈ places) ∧
      (byteWords[k]? = some u ↔ (Program.byte, k) ∈ places) ∧ (endWords[k]? = some u ↔ (Program.endAction, k) ∈ places))
    (hp : ∀ x ∈ places, x.2 < 71) : OccursOnlyAt u places := by
  intro act ha k
  by_cases hk : k < 71
  · obtain ⟨h1, h2, h3⟩ := h k hk
    rcases ha with rfl | rfl | rfl <;> assumption
  · have hn : (act, k) ∉ places := fun hm => hk (hp _ hm)
    have hnone : (programWords act)[k]? = none := by
      rw [List.getElem?_eq_none_iff]
      have h1 := startWords_length
      have h2 := byteWords_length
      have h3 := endWords_length
      rcases ha with rfl | rfl | rfl <;> simp only [programWords] <;> omega
    simp [hnone, hn]

/-! ### The rows after a list of words -/

theorem runRows_append {ws : List MicroWord} (h : ∀ u ∈ ws, ∃ i, decodeMicro u = .ok i) (rest : List MicroWord) (r : Rows) :
    runRows (ws ++ rest) r = runRows rest (runRows ws r) := by
  induction ws generalizing r with
  | nil => rfl
  | cons u us ih =>
    obtain ⟨i, hi⟩ := h u (by simp)
    simp only [List.cons_append, runRows, hi]
    exact ih (fun v hv => h v (by simp [hv])) _

/-- One word more is one micro-operation more. -/
theorem runRows_take_succ {act : Program} {upc : Nat} {u : MicroWord} {i : Instr}
    (hact : act = .start ∨ act = .byte ∨ act = .endAction) (hu : (programWords act)[upc]? = some u)
    (hi : decodeMicro u = .ok i) (r : Rows) :
    runRows ((programWords act).take (upc + 1)) r = microRows i (runRows ((programWords act).take upc) r) := by
  have ht : (programWords act).take (upc + 1) = (programWords act).take upc ++ [u] := by
    rw [List.take_add_one, hu]
    rfl
  rw [ht, runRows_append (fun v hv => programWords_decode hact v (List.mem_of_mem_take hv))]
  simp [runRows, hi]

/-- The rows' latch is the latch the words make on its own. -/
theorem runRows_out : ∀ (ws : List MicroWord) (r : Rows), (runRows ws r).out = runOutputs ws r.out
  | [], _ => rfl
  | u :: us, r => by
    simp only [runRows, runOutputs]
    cases hd : decodeMicro u with
    | error e => rfl
    | ok i =>
      show (runRows us (microRows i r)).out = _
      rw [runRows_out us]
      cases i <;> rfl

theorem startWords_rows (r : Rows) :
    runRows startWords r = { r with prev := r.cur, phase := .active, out := { r.out with flow := r.out.flow.not } } := by
  obtain ⟨p, c, e, ph, ⟨a, b, s, f⟩⟩ := r
  cases a <;> rfl

theorem byteWords_rows (r : Rows) :
    runRows byteWords r = { r with exp := r.exp + 1, out := { r.out with sync := .low } } := by
  obtain ⟨p, c, e, ph, ⟨a, b, s, f⟩⟩ := r
  cases a <;> cases b <;> rfl

theorem endWords_rows (r : Rows) :
    runRows endWords r =
      { r with prev := r.cur, exp := 0, phase := .idle, out := { r.out with sync := .high, flow := .high } } := by
  obtain ⟨p, c, e, ph, ⟨a, b, s, f⟩⟩ := r
  cases a <;> rfl

/-! ### Row Active and the actions -/

theorem activeRow_after_byte {r : Rows} (h : ActiveRow r) (f : Level) :
    ActiveRow (runRows byteWords { r with cur := f }) := by
  obtain ⟨h1, h2, h3, h4, h5, h6⟩ := h
  rw [byteWords_rows]
  simp [ActiveRow, *]

theorem idleRow_after_end {r : Rows} (h : ActiveRow r) : IdleRow (runRows endWords { r with cur := .high }) := by
  obtain ⟨h1, h2, h3, h4, h5, h6⟩ := h
  rw [endWords_rows]
  simp [IdleRow, Outputs.initial, *]

/-! ### What a step writes, by whose turn it is -/

/-- A step that is no micro-operation leaves every row that a micro-operation alone may write. -/
theorem step_not_micro {s t : State} (h : step s = .next t) (hne : ∀ i, nextTurn s ≠ .micro i) :
    t.prev = s.prev ∧ t.exp = s.exp ∧ t.phase = s.phase ∧ t.out = s.out := by
  cases step_cases h with
  | environment turn due eq => subst eq; rw [environmentStep_eq]; simp
  | wait turn dly eq => subst eq; rw [tick_eq]; simp
  | iterationEnd turn dly seq eq => subst eq; rw [endIteration_eq]; simp
  | micro turn => exact absurd turn (hne _)
  | @poll a turn dly seq action eq => subst eq; cases a <;> exact ⟨rfl, rfl, rfl, rfl⟩

/-- A micro-operation's step makes of the rows what the micro-operation makes of them; only RSTCNT writes the counter. -/
theorem step_of_micro {s t : State} {i : Instr} (h : step s = .next t) (hn : nextTurn s = .micro i) :
    t.rows = microRows i s.rows ∧ t.pcnt = if i = .rstcnt then 0 else s.pcnt := by
  cases step_cases h with
  | @micro act upc u j turn dly seq word decoded run eff =>
    rw [hn] at turn
    cases turn
    exact ⟨by rw [eff.rows, advanced_run seq]; rfl, by rw [eff.pcnt, advanced_run seq]⟩
  | environment turn => rw [hn] at turn; cases turn
  | wait turn => rw [hn] at turn; cases turn
  | iterationEnd turn => rw [hn] at turn; cases turn
  | poll turn => rw [hn] at turn; cases turn

/-! ### The trace -/

/-- Only the lines a micro-operation names can change. -/
theorem microRows_get {i : Instr} {l : OutLine} (h : (microLines i).has l = false) (r : Rows) :
    (microRows i r).out.get l = r.out.get l := by
  cases i <;> simp_all [microRows, microLines]

/-- The changes of the named lines, put into the old latch, give the new one, if no other line differs. -/
theorem putLine_lineChanges {lines : LineSet} {o o' : Outputs} (h : ∀ l, lines.has l = false → o'.get l = o.get l) :
    (lineChanges lines o o').foldl putLine o = o' := by
  have key : ∀ l, ¬ (lines.has l && decide (o.get l ≠ o'.get l)) = true → o.get l = o'.get l := by
    intro l hc
    cases hh : lines.has l
    · exact (h l hh).symm
    · simpa [hh] using hc
  have h0 := key .sioClk
  have h1 := key .spiClk
  have h2 := key .sync
  have h3 := key .flow
  unfold lineChanges OutLine.all
  simp only [List.filter_cons, List.filter_nil]
  generalize (lines.has .sioClk && decide (o.get .sioClk ≠ o'.get .sioClk)) = b0 at h0 ⊢
  generalize (lines.has .spiClk && decide (o.get .spiClk ≠ o'.get .spiClk)) = b1 at h1 ⊢
  generalize (lines.has .sync && decide (o.get .sync ≠ o'.get .sync)) = b2 at h2 ⊢
  generalize (lines.has .flow && decide (o.get .flow ≠ o'.get .flow)) = b3 at h3 ⊢
  obtain ⟨a, b, c, d⟩ := o
  obtain ⟨a', b', c', d'⟩ := o'
  simp only [Outputs.get] at *
  cases b0 <;> cases b1 <;> cases b2 <;> cases b3 <;> simp at h0 h1 h2 h3 <;> simp [putLine, *]

/-! ### Back to the poll point -/

/-- From the end of a micro-program the block comes back to the poll point, whatever the environment does, and nothing happens on the
way but waits and stimuli. -/
theorem returns_to_poll {t : State} {act : Program} (hs : t.seq = .run act (programWords act).length) (hw : t.dly = 0)
    (hd : dueStimulus t = none) (hp : t.phase ≠ .reserved) :
    ∃ (k : Nat) (u : State), Sys2Proof.core.run k t = .next u ∧ nextTurn u = .poll ∧ u.rows = t.rows ∧ u.log = t.log ∧
      u.now = t.now + iterationOverhead t ∧
      (t.env = [] → u.env = [] ∧ u.pcnt = t.pcnt) ∧
      ∀ (j : Nat) (v : State), j < k → Sys2Proof.core.run j t = .next v → nextTurn v ≠ .poll := by
  have hturn := nextTurn_iterationEnd hd hw hp hs
  have hstep := step_iterationEnd hturn
  have hphase : (endIteration t).phase ≠ .reserved := by
    rw [endIteration_eq]
    exact hp
  obtain ⟨k, u, h⟩ := settles (endIteration t) hphase
  rw [endIteration_eq] at h
  have hquiet := h.held.quiet
  refine ⟨k + 1, u, ?_, nextTurn_poll h.due h.dly h.held.seq, h.held.rows, h.held.log, h.now, ?_, ?_⟩
  · rw [run_succ hstep, endIteration_eq]
    exact h.run
  · intro he
    obtain ⟨h1, h2, -⟩ := hquiet (passStimulus_nil he)
    exact ⟨h1, h2⟩
  · intro j v hj hv
    cases j with
    | zero =>
      rw [run_zero] at hv
      cases hv
      rw [hturn]
      simp
    | succ j =>
      rw [run_succ hstep, endIteration_eq] at hv
      exact h.noPoll j v (by omega) hv

/-! ### The environment's script -/

/-- With the due stimuli taken away, none is due. -/
theorem dueStimulus_withoutDue (s : State) : dueStimulus (withoutDue s) = none := by
  have key : ∀ l : List Stimulus, match l.dropWhile fun e => e.due s.now with
      | [] => True
      | e :: _ => e.due s.now = false := by
    intro l
    induction l with
    | nil => trivial
    | cons a l ih =>
      rw [List.dropWhile_cons]
      by_cases h : a.due s.now = true
      · rw [if_pos h]
        exact ih
      · rw [if_neg h]
        show a.due s.now = false
        exact Bool.eq_false_iff.mpr h
  have hk := key s.env
  show (match s.env.dropWhile fun e => e.due s.now with
    | [] => none
    | e :: rest => if e.due s.now then some (e, rest) else none) = none
  split
  · rfl
  · rename_i e rest h
    rw [h] at hk
    have hf : e.due s.now = false := hk
    simp [hf]

end Sys2Proof.Machine
end

