-- ==== Sys2Proof/Laws/PerInstr.lean ====
section
/-! SUPPORT. The family TableRow: the word of every well-formed instruction has the bits its row of spec/opcode_table.json fixes. -/

namespace Sys2Proof.Laws

/-- The match and the mask of the instruction's row of the table, in the row's format. -/
def tableRow : Instr → TableWord × TableWord
  | .start _ => (.dispatch 0x04, .dispatch 0x1E)
  | .byte _ _ => (.dispatch 0x09, .dispatch 0x19)
  | .endAction => (.dispatch 0x0A, .dispatch 0x1F)
  | .nopIdleLow _ _ => (.dispatch 0x00, .dispatch 0x1C)
  | .nopIdleHigh _ => (.dispatch 0x06, .dispatch 0x1E)
  | .nopActiveLow => (.dispatch 0x08, .dispatch 0x1F)
  | .nopActiveHigh _ => (.dispatch 0x0C, .dispatch 0x1D)
  | .reserved _ _ _ _ => (.dispatch 0x10, .dispatch 0x10)
  | .edgeFall => (.edge 0x2, .edge 0x3)
  | .edgeRise => (.edge 0x1, .edge 0x3)
  | .edgeNoneLow => (.edge 0x0, .edge 0x3)
  | .edgeNoneHigh => (.edge 0x3, .edge 0x3)
  | .tgl _ => (.micro 0x00, .micro 0xF0)
  | .set _ _ => (.micro 0x20, .micro 0xE0)
  | .dly _ => (.micro 0x40, .micro 0xE0)
  | .rstexp => (.micro 0x60, .micro 0xFF)
  | .rstcnt => (.micro 0x80, .micro 0xFF)
  | .incexp => (.micro 0xA0, .micro 0xFF)
  | .latchprev => (.micro 0xC0, .micro 0xFF)
  | .setphase _ => (.micro 0xE0, .micro 0xFC)

/-- Whether a word has the bits a row fixes; a word of another format has not. -/
def hasRow : TableWord → TableWord × TableWord → Bool
  | .edge w, (.edge m, .edge k) => w &&& k == m
  | .dispatch w, (.dispatch m, .dispatch k) => w &&& k == m
  | .micro w, (.micro m, .micro k) => w &&& k == m
  | _, _ => false

namespace TableRow

/-- The word of the instruction, if it is well formed, is a word of its row. -/
def Statement (i : Instr) : Prop := i.wf = true → hasRow (encode i) (tableRow i) = true

theorem start (pend : Bool) : Statement (.start pend) := fun _ => by cases pend <;> rfl

theorem byte (prev cur : Level) : Statement (.byte prev cur) := fun _ => by cases prev <;> cases cur <;> rfl

theorem endAction : Statement .endAction := fun _ => rfl

theorem nopIdleLow (cur : Level) (pend : Bool) : Statement (.nopIdleLow cur pend) := fun _ => by cases cur <;> cases pend <;> rfl

theorem nopIdleHigh (pend : Bool) : Statement (.nopIdleHigh pend) := fun _ => by cases pend <;> rfl

theorem nopActiveLow : Statement .nopActiveLow := fun _ => rfl

theorem nopActiveHigh (cur : Level) : Statement (.nopActiveHigh cur) := fun _ => by cases cur <;> rfl

theorem reserved (upper : Bool) (prev cur : Level) (pend : Bool) : Statement (.reserved upper prev cur pend) := fun _ => by
  cases upper <;> cases prev <;> cases cur <;> cases pend <;> rfl

theorem edgeFall : Statement .edgeFall := fun _ => rfl

theorem edgeRise : Statement .edgeRise := fun _ => rfl

theorem edgeNoneLow : Statement .edgeNoneLow := fun _ => rfl

theorem edgeNoneHigh : Statement .edgeNoneHigh := fun _ => rfl

theorem tgl (lines : LineSet) : Statement (.tgl lines) := fun _ => by
  obtain ⟨a, b, c, d⟩ := lines
  cases a <;> cases b <;> cases c <;> cases d <;> rfl

theorem set (level : Level) (lines : LineSet) : Statement (.set level lines) := fun _ => by
  obtain ⟨a, b, c, d⟩ := lines
  cases level <;> cases a <;> cases b <;> cases c <;> cases d <;> rfl

theorem dly (n : Nat) : Statement (.dly n) := by
  intro _
  have key : ∀ a : BitVec 5, hasRow (microWord 0b010#3 a) (.micro 0x40, .micro 0xE0) = true := by decide
  exact key (BitVec.ofNat 5 n)

theorem rstexp : Statement .rstexp := fun _ => rfl

theorem rstcnt : Statement .rstcnt := fun _ => rfl

theorem incexp : Statement .incexp := fun _ => rfl

theorem latchprev : Statement .latchprev := fun _ => rfl

theorem setphase (p : Phase) : Statement (.setphase p) := fun _ => by cases p <;> rfl

end TableRow

end Sys2Proof.Laws
end

