-- ==== Sys2Proof/Laws/Scripts.lean ====
section
/-! SUPPORT. Scripts: what one insertion does to an ordered list of stimuli, and how the encoding of a run is made up of its parts. -/

namespace Sys2Proof.Machine

/-! ### Ordering stimuli -/

theorem insertStimulus_perm (e : Stimulus) (es : List Stimulus) : (insertStimulus e es).Perm (e :: es) := by
  induction es with
  | nil => exact List.Perm.refl _
  | cons x xs ih =>
    unfold insertStimulus
    split
    · exact List.Perm.refl _
    · exact (ih.cons x).trans (List.Perm.swap e x xs)

theorem mem_insertStimulus {e x : Stimulus} {es : List Stimulus} : x ∈ insertStimulus e es ↔ x = e ∨ x ∈ es := by
  rw [(insertStimulus_perm e es).mem_iff, List.mem_cons]

theorem insertStimulus_ordered {e : Stimulus} {es : List Stimulus} (h : es.Pairwise fun a b => a.time ≤ b.time) :
    (insertStimulus e es).Pairwise fun a b => a.time ≤ b.time := by
  induction es with
  | nil => exact List.pairwise_singleton _ _
  | cons x xs ih =>
    obtain ⟨hx, hxs⟩ := List.pairwise_cons.mp h
    unfold insertStimulus
    split
    · rename_i hlt
      refine List.pairwise_cons.mpr ⟨fun b hb => ?_, h⟩
      rcases List.mem_cons.mp hb with rfl | hb
      · exact hlt.le
      · exact hlt.le.trans (hx b hb)
    · rename_i hge
      refine List.pairwise_cons.mpr ⟨fun b hb => ?_, ih hxs⟩
      rcases mem_insertStimulus.mp hb with rfl | hb
      · exact not_lt.mp hge
      · exact hx b hb

/-- An insertion into an ordered list puts the stimulus behind those of its own time. -/
theorem filter_insertStimulus {e : Stimulus} {es : List Stimulus} (h : es.Pairwise fun a b => a.time ≤ b.time) (t : Nat) :
    (insertStimulus e es).filter (fun x => decide (x.time = t)) =
      es.filter (fun x => decide (x.time = t)) ++ [e].filter (fun x => decide (x.time = t)) := by
  induction es with
  | nil => rfl
  | cons x xs ih =>
    obtain ⟨hx, hxs⟩ := List.pairwise_cons.mp h
    unfold insertStimulus
    split
    · rename_i hlt
      by_cases he : e.time = t
      · have hnone : (x :: xs).filter (fun y => decide (y.time = t)) = [] := by
          rw [List.filter_eq_nil_iff]
          intro y hy
          have hle : x.time ≤ y.time := by
            rcases List.mem_cons.mp hy with rfl | hy
            · exact le_refl _
            · exact hx y hy
          simp only [decide_eq_true_eq]
          omega
        rw [List.filter_cons_of_pos (by simpa using he), hnone, List.nil_append,
          List.filter_cons_of_pos (by simpa using he)]
        rfl
      · rw [List.filter_cons_of_neg (by simpa using he)]
        simp [he]
    · by_cases hxt : x.time = t
      · rw [List.filter_cons_of_pos (by simpa using hxt), List.filter_cons_of_pos (by simpa using hxt), ih hxs]
        rfl
      · rw [List.filter_cons_of_neg (by simpa using hxt), List.filter_cons_of_neg (by simpa using hxt), ih hxs]

theorem orderStimuli_concat (es : List Stimulus) (e : Stimulus) :
    orderStimuli (es ++ [e]) = insertStimulus e (orderStimuli es) := by
  simp [orderStimuli]

/-! ### The encoding of a run -/

theorem stepEncoding_of_not_poll {s : State} (h : nextTurn s ≠ .poll) : stepEncoding s = [] := by
  simp [stepEncoding, h]

/-- A poll's word stands in the encoding unless it selects NOP. -/
theorem stepEncoding_of_poll {s : State} {a : Action} (h : nextTurn s = .poll)
    (ha : dispatch s.phase (classify s.prev s.framing) (pendOf s.pcnt s.exp) = some a) :
    stepEncoding s = if a = .nop then [] else [dispatchWordOf s.phase s.prev s.framing (pendOf s.pcnt s.exp)] := by
  have hd : dispatchWord (sampled s) = dispatchWordOf s.phase s.prev s.framing (pendOf s.pcnt s.exp) := by
    rw [sampled_eq]
    rfl
  unfold stepEncoding
  rw [if_pos h, hd]
  simp only [selectedAction_dispatchWordOf, ha]
  cases a <;> rfl

theorem runEncoding_succ {s t : State} (h : step s = .next t) (k : Nat) :
    runEncoding (k + 1) s = stepEncoding s ++ runEncoding k t := by
  simp only [runEncoding, h]

end Sys2Proof.Machine
end

