-- ==== Sys2Proof/Tests/Slice0.lean ====
section
/-! SUPPORT. Tests on fixed values, their expected results from the spec's tables (95_test_vectors.md, vectors T1 to T7, and the
encodings of 30_encoding.md), and for every statement with hypotheses states that meet them all. -/

set_option maxRecDepth 8000

namespace Sys2Proof.Tests

open Sys2Proof.Machine

/-! ### Small states -/

/-- What a next state shows. -/
def see {α : Type} (o : Host.Outcome State Fault Refusal) (f : State → α) : Option α :=
  match o with
  | .next t => some (f t)
  | .fault _ => none
  | .refused _ => none

/-- After reset with both lines HIGH and `T_ITER = 1`: first row of T6. -/
def idle : State := State.reset.withScript [] [1]

/-- The rows of a session under way, `out = 0x4`: entry state of T5.2. -/
def activeRows : Rows :=
  { prev := .low, cur := .low, exp := 0, phase := .active, out := { Outputs.initial with flow := .low } }

/-- The rows after a burst, the line risen, `out = 0x0`: entry state of T5.3. -/
def burstRows : Rows :=
  { activeRows with cur := .high, exp := 3, out := { sioClk := .low, spiClk := .low, sync := .low, flow := .low } }

/-- The rows with which START is entered: T5.1. -/
def fallenRows : Rows := { prev := .high, cur := .low, exp := 0, phase := .idle, out := Outputs.initial }

/-- A state at the poll point with given rows, sample to come and counter. -/
def pollState (r : Rows) (framing : Level) (pcnt : Count) : State :=
  { idle with prev := r.prev, cur := r.cur, exp := r.exp, phase := r.phase, out := r.out, framing := framing, pcnt := pcnt }

/-- A state inside an action, no wait running, entered with given rows. -/
def inAction (act : Program) (upc : Nat) (entry : Rows) : State :=
  let r := runRows ((programWords act).take upc) entry
  { idle with prev := r.prev, cur := r.cur, exp := r.exp, phase := r.phase, out := r.out, seq := .run act upc }

theorem inAction_inv {act : Program} {upc : Nat} {entry : Rows} (h : upc ≤ (programWords act).length)
    (he : EntryRow act entry) : SessionInv (inAction act upc entry) :=
  ⟨h, fun hd => absurd rfl hd, entry, he, rfl⟩

theorem activeRows_active : ActiveRow activeRows := ⟨rfl, rfl, rfl, rfl, rfl, fun h => absurd rfl h⟩

theorem burstRows_active : ActiveRow burstRows := ⟨rfl, rfl, rfl, rfl, rfl, fun _ => rfl⟩

theorem fallenRows_entry : EntryRow .start fallenRows := ⟨⟨rfl, rfl, rfl, rfl⟩, rfl⟩

/-! ### Well-formedness (R51, R53) -/

theorem test_wf_refuses_tgl_of_no_line : (Instr.tgl {}).wf = false := by decide

theorem test_wf_refuses_set_of_no_line : (Instr.set .high {}).wf = false := by decide

theorem test_wf_refuses_dly_zero : (Instr.dly 0).wf = false := by decide

theorem test_wf_refuses_dly_above_31 : (Instr.dly 32).wf = false := by decide

theorem test_wf_refuses_setphase_reserved : (Instr.setphase .reserved).wf = false := by decide

/-! ### Decoding of words written out from 30_encoding.md -/

/-- T1.1. -/
theorem test_decode_edge_words :
    decodeEdge 0b10 = .edgeFall ∧ decodeEdge 0b01 = .edgeRise ∧ decodeEdge 0b00 = .edgeNoneLow ∧
      decodeEdge 0b11 = .edgeNoneHigh := by decide

/-- T2: the words that select an action. -/
theorem test_decode_dispatch_actions :
    decodeDispatch 0b00100 = .start false ∧ decodeDispatch 0b00101 = .start true ∧
      decodeDispatch 0b01001 = .byte .low .low ∧ decodeDispatch 0b01011 = .byte .low .high ∧
      decodeDispatch 0b01101 = .byte .high .low ∧ decodeDispatch 0b01111 = .byte .high .high ∧
      decodeDispatch 0b01010 = .endAction := by decide

/-- T2: the words that select nothing, and the bounds of the reserved ones. -/
theorem test_decode_dispatch_nops_and_reserved :
    decodeDispatch 0b00011 = .nopIdleLow .high true ∧ decodeDispatch 0b00110 = .nopIdleHigh false ∧
      decodeDispatch 0b01000 = .nopActiveLow ∧ decodeDispatch 0b01100 = .nopActiveHigh .low ∧
      decodeDispatch 0b01110 = .nopActiveHigh .high ∧ decodeDispatch 0b10000 = .reserved false .low .low false ∧
      decodeDispatch 0b11111 = .reserved true .high .high true := by decide

/-- The word decoding check of T4 and the operations without operand of R51. -/
theorem test_decode_micro_words :
    decodeMicro 0b00000011 = .ok (.tgl { sioClk := true, spiClk := true }) ∧
      decodeMicro 0b00100100 = .ok (.set .low { sync := true }) ∧
      decodeMicro 0b00111000 = .ok (.set .high { flow := true }) ∧ decodeMicro 0b01000010 = .ok (.dly 2) ∧
      decodeMicro 0b01011111 = .ok (.dly 31) ∧ decodeMicro 0b01100000 = .ok .rstexp ∧
      decodeMicro 0b10000000 = .ok .rstcnt ∧ decodeMicro 0b10100000 = .ok .incexp ∧
      decodeMicro 0b11000000 = .ok .latchprev ∧ decodeMicro 0b11100010 = .ok (.setphase .draining) := by decide

/-- R53. -/
theorem test_decode_refuses_reserved_micro_words :
    decodeMicro 0x00 = .error .emptyLineSet ∧ decodeMicro 0x30 = .error .emptyLineSet ∧
      decodeMicro 0x11 = .error .toggleLevelBit ∧ decodeMicro 0x40 = .error .zeroDelay ∧
      decodeMicro 0x61 = .error .strayOperand ∧ decodeMicro 0xE4 = .error .strayPhaseBits ∧
      decodeMicro 0xE3 = .error .reservedPhase := by decide

/-- Log 10: a width of 2 or 5 says the format; in whole bytes the narrowest format that has the word is read. -/
theorem test_decode_table_word :
    decodeTableWord 2 0x2 = some .edgeFall ∧ decodeTableWord 5 0x04 = some (.start false) ∧
      decodeTableWord 8 0x04 = some (.start false) ∧ decodeTableWord 8 0x42 = some (.dly 2) ∧
      decodeTableWord 8 0x40 = none := by decide

/-- R58: by its length of 8 bits `0x01` is a micro-operation word, and `0x00` and `0x10` are reserved ones; 3 bits are no word. -/
theorem test_length_says_the_format :
    (wordOfLength 8 0x01).map decode = some (.ok (.tgl { sioClk := true })) ∧
      (wordOfLength 8 0x00).map decode = some (.error .emptyLineSet) ∧
      (wordOfLength 8 0x10).map decode = some (.error .toggleLevelBit) ∧
      (wordOfLength 5 0x01).map decode = some (.ok (.nopIdleLow .low true)) ∧
      (wordOfLength 2 0x1).map decode = some (.ok .edgeRise) ∧ wordOfLength 3 0x1 = none := by decide

/-! ### One step on a small state -/

/-- T6: each first dispatch word with the inputs unchanged. -/
theorem test_reset_first_dispatch_words :
    dispatchWord (sampled State.reset) = 0x06 ∧ dispatchWord (sampled (State.launch .low .high)) = 0x00 := by decide

/-- T1.2 with R82: the line has fallen; the step samples it, leaves `prev` and enters START. -/
theorem test_poll_start : see (step { idle with framing := .low }) (fun t => (t.prev, t.cur, t.seq, t.dly)) =
    some (.high, .low, .run .start 0, 0) := by decide

/-- The example of R83: word `0x0B` selects BYTE; and once served, `0x0A` selects END. -/
theorem test_poll_byte_before_end :
    see (step (pollState { activeRows with exp := 1 } .high 2)) (fun t => (t.prev, t.cur, t.seq)) =
        some (.low, .high, .run .byte 0) ∧
      see (step (pollState { activeRows with exp := 2 } .high 2)) (fun t => t.seq) = some (.run .endAction 0) := by decide

/-- The example of R85, and T7.1's poll points one `T_ITER` apart. -/
theorem test_poll_nop : see (step (pollState activeRows .low 0)) (fun t => (t.rows, t.seq, t.dly, t.log)) =
    some (activeRows, .poll, 1, []) := by decide

/-- R92: a rising edge in Idle and a falling edge in Active select nothing. -/
theorem test_nop_of_unserved_edges :
    see (exec (.nopIdleLow .high true) idle) (fun t => (t.rows, t.seq)) = some (idle.rows, .poll) ∧
      see (exec (.nopActiveHigh .low) idle) (fun t => (t.rows, t.seq)) = some (idle.rows, .poll) := by decide

/-- R50. -/
theorem test_reserved_dispatch_word_is_refused : see (step { idle with phase := .draining }) (fun t => t.now) = none := by
  decide

/-- T1.1: the class is reported and no row is written. -/
theorem test_edge_instructions :
    see (exec .edgeFall idle) (fun t => (t.edge, t.rows)) = some (some .falling, idle.rows) ∧
      see (exec .edgeRise idle) (fun t => t.edge) = some (some .rising) ∧
      see (exec .edgeNoneLow idle) (fun t => t.edge) = some (some .noEdge) ∧
      see (exec .edgeNoneHigh idle) (fun t => t.edge) = some (some .noEdge) := by decide

/-- T1.3. -/
theorem test_latchprev : see (exec .latchprev { idle with prev := .high, cur := .low }) (fun t => (t.prev, t.cur)) =
    some (.low, .low) := by decide

/-- T4: `TGL {SIO_CLK, SPI_CLK}` from `0x1` leaves the two lines different. -/
theorem test_tgl_of_different_levels :
    see (exec (.tgl { sioClk := true, spiClk := true })
        { idle with out := { sioClk := .high, spiClk := .low, sync := .low, flow := .low } }) (fun t => (t.out, t.log)) =
      some ({ sioClk := .low, spiClk := .high, sync := .low, flow := .low },
        [⟨0, [(.sioClk, .low), (.spiClk, .high)]⟩]) := by decide

/-- T4: `SET {SYNC}, LOW` from `0x7`, and from `0x3` without a change. -/
theorem test_set_sync_low :
    see (exec (.set .low { sync := true }) { idle with out := { sioClk := .high, spiClk := .high, sync := .high, flow := .low } })
        (fun t => (t.out, t.log)) =
      some ({ sioClk := .high, spiClk := .high, sync := .low, flow := .low }, [⟨0, [(.sync, .low)]⟩]) ∧
    see (exec (.set .low { sync := true }) { idle with out := { sioClk := .high, spiClk := .high, sync := .low, flow := .low } })
        (fun t => (t.out, t.log)) =
      some ({ sioClk := .high, spiClk := .high, sync := .low, flow := .low }, []) := by decide

/-- T4: 25 and 50 time-units. -/
theorem test_dly : see (exec (.dly 1) idle) (fun t => t.dly) = some 25 ∧ see (exec (.dly 2) idle) (fun t => t.dly) = some 50 := by
  decide

/-- T3.3. -/
theorem test_incexp_wraps : see (exec .incexp { idle with exp := 255 }) (fun t => t.exp) = some 0 := by decide

/-- T3.4. -/
theorem test_rstexp : see (exec .rstexp { idle with exp := 7, pcnt := 9 }) (fun t => (t.exp, t.pcnt)) = some (0, 9) := by decide

/-- T3.4 and R71: `preq_last` is left. -/
theorem test_rstcnt : see (exec .rstcnt { idle with exp := 7, pcnt := 9, preqLast := .low })
    (fun t => (t.exp, t.pcnt, t.preqLast)) = some (7, 0, .low) := by decide

/-- T4. -/
theorem test_setphase : see (exec (.setphase .draining) idle) (fun t => (t.phase, t.dly)) = some (.draining, 0) := by decide

/-- T3.1: a falling edge counts and wraps; a rising edge and an unchanged level do not. -/
theorem test_count :
    see (step { idle with pcnt := 255, env := [driveAt 0 .preq .low] }) (fun t => (t.preqLast, t.pcnt)) = some (.low, 0) ∧
      see (step { idle with pcnt := 1, preqLast := .low, env := [driveAt 0 .preq .high] }) (fun t => (t.preqLast, t.pcnt)) =
        some (.high, 1) ∧
      see (step { idle with pcnt := 5, preqLast := .low, env := [driveAt 0 .preq .low] }) (fun t => (t.preqLast, t.pcnt)) =
        some (.low, 5) := by decide

/-- T3.2. -/
theorem test_pending_and_backlog :
    pendOf 0 255 = true ∧ backlog 0 255 = 1 ∧ backlog 5 6 = 255 ∧ pendOf 255 255 = false := by decide

/-- T5.6: START from `out = 0x4` ends with `0xC`, BYTE from `0x5` with `0x1`. -/
theorem test_toggles_do_not_correct_a_wrong_entry :
    runOutputs startWords { Outputs.initial with flow := .low } = Outputs.initial ∧
      runOutputs byteWords { sioClk := .high, spiClk := .low, sync := .high, flow := .low } =
        { sioClk := .high, spiClk := .low, sync := .low, flow := .low } := by decide

/-- A placed word is the one the next step runs (log 11). -/
theorem test_with_fetch_word :
    see (step (State.reset.withFetchWord 5 0x05)) (fun t => t.seq) = some (.run .start 0) ∧
      see (step (State.reset.withFetchWord 8 0x42)) (fun t => t.dly) = some 50 ∧
      see (step (State.reset.withFetchWord 8 0x80)) (fun t => t.pcnt) = some 0 ∧
      see (step (placeWord State.reset (.micro 0x01))) (fun t => t.out.sioClk) = some .high := by decide

/-- The script of P3, line by line, is taken in the order of its times, the pulse's rise after the framing line's. -/
theorem test_script_of_p3 :
    scriptStimuli [.pulse 3 5, .drive 10 .framing .low, .pulse 1500 5, .drive 1500 .framing .high, .pulse 3000 5] =
      [driveAt 3 .preq .low, driveAt 8 .preq .high, driveAt 10 .framing .low, driveAt 1500 .preq .low,
        driveAt 1500 .framing .high, driveAt 1505 .preq .high, driveAt 3000 .preq .low, driveAt 3005 .preq .high] := by
  decide

/-- P3's poll point 1500: the pulse and the rise of the framing line are both seen, and the word is `0x0B`. -/
theorem test_encoding_of_p3_at_1500 :
    runEncoding 3 { pollState { activeRows with exp := 1 } .low 1 with
      now := 1500, env := scriptStimuli [.pulse 1500 5, .drive 1500 .framing .high] } = [0x0B] := by decide

/-! ### The hypotheses of the statements can be met -/

theorem test_witness_decode_of_encode : (Instr.tgl { flow := true }).wf = true ∧ (Instr.dly 31).wf = true := by decide

theorem test_witness_encode_of_decode : decode (.micro 0x08) = .ok (.tgl { flow := true }) ∧
    decode (.dispatch 0x0A) = .ok .endAction ∧ decode (.edge 0b01) = .ok .edgeRise := by decide

theorem test_witness_session_invariant_at_poll :
    SessionInv idle ∧ SessionInv (pollState activeRows .low 1) ∧ (see (step idle) (fun t => t.cur) = some .high) ∧
      (see (step (pollState activeRows .low 1)) (fun t => t.seq) = some (.run .byte 0)) :=
  ⟨.inl ⟨rfl, rfl, rfl, rfl⟩, .inr activeRows_active, by decide, by decide⟩

theorem test_witness_session_invariant_in_a_wait :
    SessionInv { inAction .byte 2 activeRows with dly := 25 } ∧
      see (step { inAction .byte 2 activeRows with dly := 25 }) (fun t => t.dly) = some 24 :=
  ⟨⟨by decide, fun _ => ⟨1, 0x41, 1, rfl, rfl, rfl, by decide⟩, activeRows, activeRows_active, rfl⟩, by decide⟩

theorem test_witness_session_invariant_at_end_of_action :
    SessionInv (inAction .endAction 71 burstRows) ∧
      see (step (inAction .endAction 71 burstRows)) (fun t => (t.seq, t.phase)) = some (.poll, .idle) :=
  ⟨inAction_inv (by decide) ⟨burstRows_active, rfl⟩, by decide⟩

theorem test_witness_trace_faithful :
    TraceFaithful { idle with now := 5, out := { Outputs.initial with flow := .low }, log := [⟨5, [(.flow, .low)]⟩] } ∧
      (see (step { idle with now := 5, out := { Outputs.initial with flow := .low }, log := [⟨5, [(.flow, .low)]⟩] })
        (fun t => t.log)) = some [⟨5, [(.flow, .low)]⟩] :=
  ⟨⟨rfl, by simp, by simp⟩, by decide⟩

theorem test_witness_counter_at_line :
    CounterSeesLine { idle with env := [driveAt 0 .preq .low] } ∧ NoConditionHeld { idle with env := [driveAt 0 .preq .low] } ∧
      see (step { idle with env := [driveAt 0 .preq .low] }) (fun t => (t.preq, t.pcnt)) = some (.low, 1) :=
  ⟨rfl, rfl, by decide⟩

theorem test_witness_due_stimulus :
    dueStimulus { idle with env := [driveAt 0 .preq .low] } = some (driveAt 0 .preq .low, []) ∧
      dueStimulus { idle with env := [driveAt 0 .preq .high] } = some (driveAt 0 .preq .high, []) ∧
      dueStimulus { idle with env := [driveAt 0 .framing .low] } = some (driveAt 0 .framing .low, []) ∧
      dueStimulus { idle with env := [driveAt 1 .framing .low] } = none ∧ idle.phase ≠ .reserved := by decide

theorem test_witness_latchprev_writes_prev :
    see (step (inAction .start 9 fallenRows)) (fun t => t.prev) = some .low ∧ (inAction .start 9 fallenRows).prev = .high ∧
      nextTurn (inAction .start 9 fallenRows) = .micro .latchprev := by decide

theorem test_witness_count_by_rstcnt_alone :
    see (step { inAction .endAction 68 burstRows with pcnt := 3 }) (fun t => t.pcnt) = some 0 ∧
      nextTurn { inAction .endAction 68 burstRows with pcnt := 3 } = .micro .rstcnt ∧ nextTurn idle ≠ .micro .rstcnt := by
  decide

theorem test_witness_race : (inAction .endAction 68 burstRows).seq = .run .endAction 68 ∧
    (inAction .endAction 68 burstRows).dly = 0 ∧ (inAction .endAction 68 burstRows).phase ≠ .reserved ∧
    (inAction .endAction 68 burstRows).preqLast = .high := by decide

/-- Operands at the ends of their ranges, and those that no word has. -/
theorem test_witness_operands : (1 : BitVec 4) ≠ 0 ∧ (LineSet.ofMask 1).nonEmpty = true ∧ ({} : LineSet).nonEmpty = false ∧
    1 ≤ 1 ∧ 31 ≤ 31 ∧ 31 < 32 ∧ Phase.draining ≠ .reserved := by decide

theorem test_witness_lengths : wordOfLength 5 0x0A = some (.dispatch 0x0A) ∧ wordOfLength 2 3 = some (.edge 3) ∧
    wordOfLength 8 255 = some (.micro 255) := by decide

/-- A script on time with its first line due now, and one step of it. -/
theorem test_witness_script_on_time :
    ScriptOnTime { idle with env := scriptStimuli [.pulse 0 5] } ∧
      see (step { idle with env := scriptStimuli [.pulse 0 5] }) (fun t => (t.pcnt, t.env)) =
        some (1, [driveAt 5 .preq .high]) ∧
      nextTurn { idle with env := scriptStimuli [.pulse 0 5] } = .environment (driveAt 0 .preq .low) [driveAt 5 .preq .high] := by
  unfold ScriptOnTime
  decide

/-- Every clause of the statement on SET: all lines there already, and one that moves. -/
theorem test_witness_set_clauses :
    (∀ l, LineSet.has { sync := true } l = true → idle.out.get l = .high) ∧
      LineSet.has { sync := true } .sync = true ∧ idle.out.get .sync ≠ .low := by
  refine ⟨?_, by decide, by decide⟩
  intro l
  cases l <;> decide

theorem test_witness_action_entry : idle.dly = 0 ∧ idle.phase ≠ .reserved ∧ idle.env = [] ∧
    (inAction .start 0 fallenRows).seq = .run .start 0 ∧ (inAction .start 0 fallenRows).dly = 0 ∧
    (inAction .start 0 fallenRows).phase ≠ .reserved := by decide

theorem test_witness_nops :
    selectedAction (.nopIdleLow .low false) = some .nop ∧ selectedAction (.nopIdleHigh true) = some .nop ∧
      selectedAction .nopActiveLow = some .nop ∧ selectedAction (.nopActiveHigh .high) = some .nop := by decide

theorem test_witness_reserved_bounds : (0x03 : DispatchWord) ≤ 0x03 ∧ (0x0C : DispatchWord) ≤ 0x0C ∧ (0x0F : DispatchWord) ≤ 0x0F ∧
    (0x10 : DispatchWord).getLsbD 4 = true ∧ (0x0F : DispatchWord).getLsbD 4 = false := by decide

theorem test_witness_poll_point : dueStimulus idle = none ∧ idle.dly = 0 ∧ idle.seq = .poll := by decide

theorem test_witness_micro_operation :
    dueStimulus (inAction .start 8 fallenRows) = none ∧ (inAction .start 8 fallenRows).dly = 0 ∧
      (inAction .start 8 fallenRows).phase ≠ .reserved ∧ (inAction .start 8 fallenRows).seq = .run .start 8 ∧
      (programWords .start)[8]? = some 0x08 ∧ decodeMicro 0x08 = .ok (.tgl { flow := true }) := by decide

theorem test_witness_wait : dueStimulus { idle with dly := 3 } = none ∧ ({ idle with dly := 3 } : State).dly ≠ 0 ∧
    ({ idle with dly := 3 } : State).phase ≠ .reserved := by decide

theorem test_witness_end_of_program : dueStimulus (inAction .byte 49 activeRows) = none ∧ (inAction .byte 49 activeRows).dly = 0 ∧
    (inAction .byte 49 activeRows).phase ≠ .reserved ∧
    (inAction .byte 49 activeRows).seq = .run .byte (programWords .byte).length := by decide

theorem test_witness_who_writes_what :
    (see (step { idle with framing := .low }) (fun t => t.cur) = some .low ∧ idle.cur = .high) ∧
      (see (step (inAction .byte 48 activeRows)) (fun t => t.exp) = some 1 ∧ (inAction .byte 48 activeRows).exp = 0) ∧
      (see (step (inAction .endAction 67 burstRows)) (fun t => t.exp) = some 0 ∧
        (inAction .endAction 67 burstRows).exp = 3) ∧
      (see (step (inAction .start 10 fallenRows)) (fun t => t.phase) = some .active ∧
        (inAction .start 10 fallenRows).phase = .idle) := by decide

/-- Each line moves where the statement on the lines says, in a state that meets the session invariant. -/
theorem test_witness_line_moves :
    ((inAction .byte 2 activeRows).out.sync = .high ∧
        see (step (inAction .byte 2 activeRows)) (fun t => t.out.sync) = some .low) ∧
      ((inAction .endAction 65 burstRows).out.sync = .low ∧
        see (step (inAction .endAction 65 burstRows)) (fun t => t.out.sync) = some .high) ∧
      ((inAction .start 8 fallenRows).out.flow = .high ∧
        see (step (inAction .start 8 fallenRows)) (fun t => t.out.flow) = some .low) ∧
      ((inAction .endAction 66 burstRows).out.flow = .low ∧
        see (step (inAction .endAction 66 burstRows)) (fun t => t.out.flow) = some .high) ∧
      see (step (inAction .byte 0 activeRows)) (fun t => (t.out.sioClk, t.out.spiClk)) = some (.high, .high) := by decide

theorem test_witness_line_moves_invariant :
    SessionInv (inAction .byte 2 activeRows) ∧ SessionInv (inAction .endAction 65 burstRows) ∧
      SessionInv (inAction .start 8 fallenRows) ∧ SessionInv (inAction .endAction 66 burstRows) ∧
      SessionInv (inAction .byte 0 activeRows) :=
  ⟨inAction_inv (by decide) activeRows_active, inAction_inv (by decide) ⟨burstRows_active, rfl⟩,
    inAction_inv (by decide) fallenRows_entry, inAction_inv (by decide) ⟨burstRows_active, rfl⟩,
    inAction_inv (by decide) activeRows_active⟩

/-- A tick with each action from the rows of T5, with the rows T5 gives. -/
theorem test_witness_big_tick :
    ((bigTick fallenRows .low 0 0).map fun x => (x.action, x.rows, x.time)) = some (.start, activeRows, 200) ∧
      ((bigTick activeRows .low 1 0).map fun x => (x.action, x.rows.exp, x.time)) = some (.byte, 1, 800) ∧
      ((bigTick burstRows .high 3 0).map fun x => (x.action, x.rows, x.time)) = some (.endAction, idle.rows, 1600) ∧
      ((bigTick activeRows .low 0 0).map fun x => (x.action, x.rows, x.time)) = some (.nop, activeRows, 0) ∧
      nextTurn (pollState burstRows .high 3) = .poll ∧ (pollState burstRows .high 3).env = [] := by decide

theorem test_witness_pending_pulse : dueStimulus (pollState activeRows .high 1) = none ∧ (pollState activeRows .high 1).dly = 0 ∧
    (pollState activeRows .high 1).seq = .poll ∧ (pollState activeRows .high 1).phase = .active ∧
    (pollState activeRows .high 1).pcnt ≠ (pollState activeRows .high 1).exp := by decide

/-- A backlog of 2 with the line HIGH: two bursts and then END. -/
theorem test_witness_backlog : ActiveRow burstRows ∧
    ((bigRun burstRows [(.high, 5), (.high, 5), (.high, 5)]).map fun x => x.1) = some [.byte, .byte, .endAction] :=
  ⟨burstRows_active, by decide⟩

/-- A session with one burst and one with none. -/
theorem test_witness_session : IdleRow idle.rows ∧
    (bigRun idle.rows [(.low, 0), (.low, 1), (.low, 1), (.high, 1)]).map (fun x => x.1) =
      some (.start :: [.byte, .nop] ++ [.endAction]) ∧
    (bigRun idle.rows [(.low, 0), (.high, 0)]).map (fun x => x.1) = some (.start :: [] ++ [.endAction]) ∧
    .endAction ∉ [Action.byte, .nop] :=
  ⟨⟨rfl, rfl, rfl, rfl⟩, by decide, by decide, by decide⟩

end Sys2Proof.Tests
end

/-! PROOFS. The output trace: what a micro-operation's event says, what each step makes of the trace, and that every step keeps it
faithful. -/

namespace Sys2Proof.Machine

/-! ### The event of a micro-operation -/

/-- A micro-operation emits nothing where no line changes, and else one event with all the changes (log 12). -/
theorem microEvents_eq (i : Instr) (n : Nat) (r : Rows) :
    microEvents i n r =
      if lineChanges (microLines i) r.out (microRows i r).out = [] then []
      else [{ time := n, changes := lineChanges (microLines i) r.out (microRows i r).out }] := by
  unfold microEvents
  cases lineChanges (microLines i) r.out (microRows i r).out <;> rfl

theorem mem_microEvents {i : Instr} {n : Nat} {r : Rows} {e : TraceEvent} (h : e ∈ microEvents i n r) :
    e.time = n ∧ e.changes ≠ [] := by
  rw [microEvents_eq] at h
  split at h
  · cases h
  · next hne =>
    cases List.mem_singleton.mp h
    exact ⟨rfl, hne⟩

theorem pairwise_microEvents (i : Instr) (n : Nat) (r : Rows) :
    (microEvents i n r).Pairwise fun a b => b.time ≤ a.time := by
  rw [microEvents_eq]
  split
  · exact .nil
  · exact List.pairwise_singleton ..

theorem lineChanges_microRows_foldl (i : Instr) (r : Rows) :
    (lineChanges (microLines i) r.out (microRows i r).out).foldl putLine r.out = (microRows i r).out :=
  putLine_lineChanges fun _ h => microRows_get h r

/-- An observer who knows the old levels reads the new ones off the micro-operation's event. -/
theorem replay_microEvents {i : Instr} {n : Nat} {r : Rows} {log : List TraceEvent} (h : replay log = r.out) :
    replay (microEvents i n r ++ log) = (microRows i r).out := by
  have hfold := lineChanges_microRows_foldl i r
  rw [microEvents_eq]
  split
  · next hnil =>
    rw [hnil] at hfold
    exact h.trans hfold
  · rw [List.singleton_append, replay, h, hfold]

/-! ### What a step makes of the trace -/

/-- A step that is no micro-operation emits nothing, and the time does not run back. -/
theorem step_not_micro_trace {s t : State} (h : step s = .next t) (hne : ∀ i, nextTurn s ≠ .micro i) :
    t.log = s.log ∧ s.now ≤ t.now := by
  cases step_cases h with
  | environment turn due eq => subst eq; rw [environmentStep_eq]; simp
  | wait turn dly eq => subst eq; rw [tick_eq]; simp
  | iterationEnd turn dly seq eq => subst eq; rw [endIteration_eq]; simp
  | micro turn => exact absurd turn (hne _)
  | @poll a turn dly seq action eq => subst eq; cases a <;> exact ⟨rfl, le_rfl⟩

/-- A micro-operation's step puts its event in front of the trace, at the present time. -/
theorem step_of_micro_trace {s t : State} {i : Instr} (h : step s = .next t) (hn : nextTurn s = .micro i) :
    t.log = microEvents i s.now s.rows ++ s.log ∧ t.now = s.now := by
  cases step_cases h with
  | @micro act upc u j turn dly seq word decoded run eff =>
    rw [hn] at turn
    cases turn
    have hadv := advanced_run seq
    exact ⟨by rw [eff.log, hadv]; rfl, by rw [eff.rest, hadv]⟩
  | environment turn => rw [hn] at turn; cases turn
  | wait turn => rw [hn] at turn; cases turn
  | iterationEnd turn => rw [hn] at turn; cases turn
  | poll turn => rw [hn] at turn; cases turn

/-! ### The trace stays faithful -/

/-- A trace that explains the levels goes on to do so while time passes and no output moves. -/
theorem traceFaithful_of_held {s t : State} (hs : TraceFaithful s) (hout : t.out = s.out) (hlog : t.log = s.log)
    (hnow : s.now ≤ t.now) : TraceFaithful t := by
  obtain ⟨hreplay, horder, hevents⟩ := hs
  unfold TraceFaithful
  rw [hout, hlog]
  exact ⟨hreplay, horder, fun e he => ⟨(hevents e he).1.trans hnow, (hevents e he).2⟩⟩

/-- A micro-operation's event in front of a faithful trace gives a faithful trace. -/
theorem traceFaithful_of_microEvents {s t : State} {i : Instr} (hs : TraceFaithful s)
    (hout : t.out = (microRows i s.rows).out) (hlog : t.log = microEvents i s.now s.rows ++ s.log)
    (hnow : t.now = s.now) : TraceFaithful t := by
  obtain ⟨hreplay, horder, hevents⟩ := hs
  unfold TraceFaithful
  rw [hout, hlog, hnow]
  refine ⟨replay_microEvents hreplay, ?_, ?_⟩
  · have hlatest : ∀ a ∈ microEvents i s.now s.rows, ∀ b ∈ s.log, b.time ≤ a.time := by
      intro a ha b hb
      rw [(mem_microEvents ha).1]
      exact (hevents b hb).1
    exact List.pairwise_append.mpr ⟨pairwise_microEvents .., horder, hlatest⟩
  · intro e he
    rcases List.mem_append.mp he with hnew | hold
    · exact ⟨(mem_microEvents hnew).1.le, (mem_microEvents hnew).2⟩
    · exact hevents e hold

/-- Settles O12: a micro-operation adds the event that explains what it does to the latch, at the present time; any other step leaves
latch and trace alone. -/
theorem stepKeepsTheTraceFaithful : Obligations.StepKeepsTheTraceFaithful := by
  intro s t hs h
  by_cases hmicro : ∃ i, nextTurn s = .micro i
  · obtain ⟨i, hi⟩ := hmicro
    obtain ⟨hrows, -⟩ := step_of_micro h hi
    obtain ⟨hlog, hnow⟩ := step_of_micro_trace h hi
    exact traceFaithful_of_microEvents hs (congrArg Rows.out hrows) hlog hnow
  · have hne : ∀ i, nextTurn s ≠ .micro i := not_exists.mp hmicro
    obtain ⟨-, -, -, hout⟩ := step_not_micro h hne
    obtain ⟨hlog, hnow⟩ := step_not_micro_trace h hne
    exact traceFaithful_of_held hs hout hlog hnow

end Sys2Proof.Machine

/-! PROOFS. The state: what reset and a step in a wait give, the only writer of each row, and the two invariants over the rows, the counter's
input stage and the condition value that every step keeps. -/

namespace Sys2Proof.Machine

/-! ### What the operations make of the rows -/

@[simp] theorem selected_rows (a : Action) (s : State) : (selected a s).rows = s.rows := by cases a <;> rfl

@[simp] theorem selected_pcnt (a : Action) (s : State) : (selected a s).pcnt = s.pcnt := by cases a <;> rfl

@[simp] theorem selected_preq (a : Action) (s : State) : (selected a s).preq = s.preq := by cases a <;> rfl

@[simp] theorem selected_preqLast (a : Action) (s : State) : (selected a s).preqLast = s.preqLast := by cases a <;> rfl

@[simp] theorem selected_edge (a : Action) (s : State) : (selected a s).edge = none := by cases a <;> rfl

/-- The sample is the one row a poll point writes (R60). -/
theorem polled_rows (s : State) : (polled s).rows = { s.rows with cur := s.framing } := rfl

@[simp] theorem microRows_cur (i : Instr) (r : Rows) : (microRows i r).cur = r.cur := by cases i <;> rfl

/-- The micro-operations that write `exp` are INCEXP and RSTEXP (R73, R74). -/
theorem microRows_exp {i : Instr} {r : Rows} (h : (microRows i r).exp ≠ r.exp) :
    (i = .incexp ∧ (microRows i r).exp = r.exp + 1) ∨ (i = .rstexp ∧ (microRows i r).exp = 0) := by
  cases i with
  | incexp => exact .inl ⟨rfl, rfl⟩
  | rstexp => exact .inr ⟨rfl, rfl⟩
  | _ => exact absurd rfl h

/-- The micro-operation that writes `phase` is SETPHASE (R98). -/
theorem eq_setphase_of_microRows_phase {i : Instr} {r : Rows} (h : (microRows i r).phase ≠ r.phase) :
    i = .setphase (microRows i r).phase := by
  cases i with
  | setphase p => rfl
  | _ => exact absurd rfl h

/-- The micro-operations that move an output line are the TGL and the SET that name it (R95, R96). -/
theorem microRows_out_get {i : Instr} {r : Rows} {l : OutLine} (h : (microRows i r).out.get l ≠ r.out.get l) :
    (∃ lines, i = .tgl lines ∧ lines.has l = true) ∨
      (∃ v lines, i = .set v lines ∧ lines.has l = true ∧ (microRows i r).out.get l = v) := by
  have hnamed : (microLines i).has l = true := by
    by_contra hn
    exact h (microRows_get (by simpa using hn) r)
  cases i with
  | tgl lines => exact .inl ⟨lines, rfl, hnamed⟩
  | set v lines =>
    have hlevel : (r.out.drive v lines).get l = v := by
      rw [Outputs.drive_get]
      exact if_pos hnamed
    exact .inr ⟨v, lines, rfl, hnamed, hlevel⟩
  | _ => exact absurd rfl h

/-- A stimulus leaves the rows, the position, the wait and the condition value (R39). -/
theorem environmentStep_frame (s : State) (e : Stimulus) (rest : List Stimulus) :
    (environmentStep s e rest).rows = s.rows ∧ (environmentStep s e rest).seq = s.seq ∧
      (environmentStep s e rest).dly = s.dly ∧ (environmentStep s e rest).edge = s.edge := by
  rw [environmentStep_eq]
  exact ⟨rfl, rfl, rfl, rfl⟩

/-- A stimulus counts where it is a fall of `PREQ` (R39, R68). -/
theorem environmentStep_pcnt (s : State) (e : Stimulus) (rest : List Stimulus) :
    (environmentStep s e rest).pcnt =
      if e.line = .preq ∧ e.level = .low ∧ s.preqLast = .high then s.pcnt + 1 else s.pcnt := by
  unfold environmentStep
  cases e.line with
  | framing => rfl
  | preq =>
    rw [driveLine_preq]
    simp [and_comm]

/-- A stimulus takes the counter's input stage along with the line (R39, R68). -/
theorem environmentStep_counterSeesLine {s : State} (h : CounterSeesLine s) (e : Stimulus) (rest : List Stimulus) :
    CounterSeesLine (environmentStep s e rest) := by
  unfold environmentStep
  cases e.line with
  | framing => exact h
  | preq =>
    rw [driveLine_preq]
    rfl

/-! ### Reset, and a step in a wait -/

/-- Settles O9: each row as the launch writes it. -/
theorem launchHoldsTheResetValues : Obligations.LaunchHoldsTheResetValues :=
  fun _ _ => ⟨rfl, rfl, rfl, rfl, rfl, rfl, rfl, rfl, rfl, rfl, rfl, rfl⟩

/-- A launch with the framing line HIGH is at a poll point in row Idle (R22, R23). -/
theorem sessionInv_launch_high (p : Level) : SessionInv (State.launch .high p) := .inl ⟨rfl, rfl, rfl, rfl⟩

theorem counterSeesLine_launch (f p : Level) : CounterSeesLine (State.launch f p) := rfl

theorem noConditionHeld_launch (f p : Level) : NoConditionHeld (State.launch f p) := rfl

/-- The empty trace explains the initial levels. -/
theorem traceFaithful_launch (f p : Level) : TraceFaithful (State.launch f p) :=
  ⟨rfl, .nil, fun _ h => absurd h List.not_mem_nil⟩

/-- Settles O10: reset is the launch with both lines HIGH, and every launch with FRAMING HIGH meets each invariant. -/
theorem resetMeetsTheInvariants : Obligations.ResetMeetsTheInvariants := by
  have launch : ∀ p : Level, SessionInv (State.launch .high p) ∧ CounterSeesLine (State.launch .high p) ∧
      NoConditionHeld (State.launch .high p) ∧ TraceFaithful (State.launch .high p) := fun p =>
    ⟨sessionInv_launch_high p, counterSeesLine_launch .high p, noConditionHeld_launch .high p, traceFaithful_launch .high p⟩
  obtain ⟨hsession, hcounter, hedge, htrace⟩ := launch .high
  exact ⟨hsession, hcounter, hedge, htrace, launch⟩

/-- Settles O36: the turn is the wait's, whose step is one tick. -/
theorem stepInAWaitPassesOneTimeUnit : Obligations.StepInAWaitPassesOneTimeUnit := by
  intro s hdue hdly hphase
  rw [step_wait (nextTurn_wait hdue hdly hphase), tick_eq]

/-! ### The only writer of each row -/

/-- Settles O39: of the five kinds of step only a poll point samples. -/
theorem curIsWrittenOnlyByTheSample : Obligations.CurIsWrittenOnlyByTheSample := by
  intro s t h hne
  cases step_cases h with
  | environment turn due eq => exact absurd (by rw [eq, environmentStep_eq]) hne
  | wait turn dly eq => exact absurd (by rw [eq, tick_eq]) hne
  | iterationEnd turn dly seq eq => exact absurd (by rw [eq, endIteration_eq]) hne
  | micro turn =>
    have hcur : t.rows.cur = s.rows.cur := by rw [(step_of_micro h turn).1, microRows_cur]
    exact absurd hcur hne
  | @poll a turn dly seq action eq =>
    have hrows : t.rows = { s.rows with cur := s.framing } := by rw [eq, selected_rows, polled_rows]
    exact ⟨turn, congrArg Rows.cur hrows⟩

/-- A step is that of a micro-operation, or it leaves the rows that micro-operations alone write. -/
theorem micro_or_rows_kept {s t : State} (h : step s = .next t) :
    (∃ i, nextTurn s = .micro i ∧ t.rows = microRows i s.rows) ∨
      (t.prev = s.prev ∧ t.exp = s.exp ∧ t.phase = s.phase ∧ t.out = s.out) := by
  by_cases hmicro : ∃ i, nextTurn s = .micro i
  · obtain ⟨i, hi⟩ := hmicro
    exact .inl ⟨i, hi, (step_of_micro h hi).1⟩
  · exact .inr (step_not_micro h (not_exists.mp hmicro))

/-- Settles O40: `exp` moves in a micro-operation's step alone, and there by INCEXP and RSTEXP. -/
theorem expIsWrittenOnlyByIncexpAndRstexp : Obligations.ExpIsWrittenOnlyByIncexpAndRstexp := by
  intro s t h hne
  rcases micro_or_rows_kept h with ⟨i, turn, rows⟩ | ⟨-, exp, -, -⟩
  · have hexp : t.exp = (microRows i s.rows).exp := congrArg Rows.exp rows
    rw [turn, hexp]
    rw [hexp] at hne
    rcases microRows_exp hne with ⟨rfl, hval⟩ | ⟨rfl, hval⟩
    · exact .inl ⟨rfl, hval⟩
    · exact .inr ⟨rfl, hval⟩
  · exact absurd exp hne

/-- Settles O41: `pcnt` moves in a stimulus that is a fall of `PREQ` and in RSTCNT. -/
theorem pcntIsWrittenOnlyByCountAndRstcnt : Obligations.PcntIsWrittenOnlyByCountAndRstcnt := by
  intro s t h hne
  cases step_cases h with
  | @environment e rest turn due eq =>
    have hpcnt := environmentStep_pcnt s e rest
    rw [← eq] at hpcnt
    by_cases hcount : e.line = .preq ∧ e.level = .low ∧ s.preqLast = .high
    · rw [if_pos hcount] at hpcnt
      obtain ⟨hline, hlevel, hlast⟩ := hcount
      exact .inr ⟨e, rest, turn, hline, hlevel, hlast, hpcnt⟩
    · rw [if_neg hcount] at hpcnt
      exact absurd hpcnt hne
  | wait turn dly eq => exact absurd (by rw [eq, tick_eq]) hne
  | iterationEnd turn dly seq eq => exact absurd (by rw [eq, endIteration_eq]) hne
  | @micro act upc u i turn =>
    have hpcnt := (step_of_micro h turn).2
    by_cases hi : i = .rstcnt
    · rw [if_pos hi] at hpcnt
      exact .inl ⟨hi ▸ turn, hpcnt⟩
    · rw [if_neg hi] at hpcnt
      exact absurd hpcnt hne
  | poll turn dly seq action eq => exact absurd (by rw [eq, selected_pcnt]; rfl) hne

/-- Settles O42: `phase` moves in a micro-operation's step alone, and there by SETPHASE. -/
theorem phaseIsWrittenOnlyBySetphase : Obligations.PhaseIsWrittenOnlyBySetphase := by
  intro s t h hne
  rcases micro_or_rows_kept h with ⟨i, turn, rows⟩ | ⟨-, -, phase, -⟩
  · have hphase : t.phase = (microRows i s.rows).phase := congrArg Rows.phase rows
    rw [hphase] at hne ⊢
    rw [turn, ← eq_setphase_of_microRows_phase hne]
  · exact absurd phase hne

/-- Settles O43: an output line moves in a micro-operation's step alone, and there by a TGL or a SET that names it. -/
theorem outputsMoveOnlyByToggleAndSet : Obligations.OutputsMoveOnlyByToggleAndSet := by
  intro s t l h hne
  rcases micro_or_rows_kept h with ⟨i, turn, rows⟩ | ⟨-, -, -, out⟩
  · have hout : t.out = (microRows i s.rows).out := congrArg Rows.out rows
    rw [turn, hout]
    rw [hout] at hne
    rcases microRows_out_get hne with ⟨lines, rfl, hnamed⟩ | ⟨v, lines, rfl, hnamed, hlevel⟩
    · exact .inl ⟨lines, rfl, hnamed⟩
    · exact .inr ⟨v, lines, rfl, hnamed, hlevel⟩
  · exact absurd (congrArg (Outputs.get · l) out) hne

/-! ### The counter's input stage and the condition value -/

/-- Settles O13: a stimulus moves the line and the input stage together; of the other steps only a poll touches the condition value, and
its selection consumes it. -/
theorem stepKeepsTheCounterAtTheLine : Obligations.StepKeepsTheCounterAtTheLine := by
  intro s t hcounter hedge h
  cases step_cases h with
  | @environment e rest turn due eq =>
    subst eq
    obtain ⟨-, -, -, hkept⟩ := environmentStep_frame s e rest
    exact ⟨environmentStep_counterSeesLine hcounter e rest, hkept.trans hedge⟩
  | wait turn dly eq => rw [eq, tick_eq]; exact ⟨hcounter, hedge⟩
  | iterationEnd turn dly seq eq => rw [eq, endIteration_eq]; exact ⟨hcounter, hedge⟩
  | micro turn dly seq word decoded run effect =>
    rw [effect.rest, advanced_run seq]
    exact ⟨hcounter, hedge⟩
  | @poll a turn dly seq action eq =>
    subst eq
    have hline : (selected a (polled s)).preqLast = (selected a (polled s)).preq := by
      rw [selected_preqLast, selected_preq]
      exact hcounter
    exact ⟨hline, selected_edge a (polled s)⟩

/-! ### The session invariant, by position -/

theorem sessionInv_poll {s : State} (h : s.seq = .poll) : SessionInv s ↔ IdleRow s.rows ∨ ActiveRow s.rows := by
  unfold SessionInv
  rw [h]

theorem sessionInv_run {s : State} {act : Program} {upc : Nat} (h : s.seq = .run act upc) :
    SessionInv s ↔ upc ≤ (programWords act).length ∧ WaitOfDelay act upc s.dly ∧
      ∃ entry, EntryRow act entry ∧ s.rows = runRows ((programWords act).take upc) entry := by
  unfold SessionInv
  rw [h]

theorem waitOfDelay_zero (act : Program) (upc : Nat) : WaitOfDelay act upc 0 := fun h => absurd rfl h

theorem WaitOfDelay.of_le {act : Program} {upc d d' : Nat} (h : WaitOfDelay act upc d) (hle : d' ≤ d) :
    WaitOfDelay act upc d' := by
  intro hd'
  obtain ⟨k, u, n, hk, hu, hn, hd⟩ := h (by omega)
  exact ⟨k, u, n, hk, hu, hn, hle.trans hd⟩

/-- A micro-operation leaves no wait but that of a `DLY` (R97). -/
theorem waitOfDelay_microDly {act : Program} {upc : Nat} {u : MicroWord} {i : Instr}
    (hu : (programWords act)[upc]? = some u) (hi : decodeMicro u = .ok i) :
    WaitOfDelay act (upc + 1) (microDly i 0) := by
  cases i with
  | dly n => exact fun _ => ⟨upc, u, n, rfl, hu, hi, le_rfl⟩
  | _ => exact waitOfDelay_zero _ _

/-- While the rows and the position hold and no wait grows, the invariant holds on. -/
theorem SessionInv.of_held {s t : State} (hs : SessionInv s) (hrows : t.rows = s.rows) (hseq : t.seq = s.seq)
    (hdly : t.dly ≤ s.dly) : SessionInv t := by
  cases h : s.seq with
  | poll =>
    rw [sessionInv_poll (hseq.trans h), hrows]
    exact (sessionInv_poll h).mp hs
  | run act upc =>
    obtain ⟨hupc, hwait, hentry⟩ := (sessionInv_run h).mp hs
    rw [sessionInv_run (hseq.trans h), hrows]
    exact ⟨hupc, hwait.of_le hdly, hentry⟩

/-! ### Entering an action, and its end -/

theorem classify_eq_falling {prev cur : Level} (h : classify prev cur = .falling) : prev = .high ∧ cur = .low := by
  revert h
  cases prev <;> cases cur <;> decide

theorem classify_eq_rising {prev cur : Level} (h : classify prev cur = .rising) : prev = .low ∧ cur = .high := by
  revert h
  cases prev <;> cases cur <;> decide

/-- What selects each action (R82, R83, R84). -/
theorem dispatch_some {phase : Phase} {edge : EdgeClass} {pend : Bool} {a : Action}
    (h : dispatch phase edge pend = some a) :
    match a with
    | .nop => True
    | .start => phase = .idle ∧ edge = .falling
    | .byte => phase = .active
    | .endAction => phase = .active ∧ edge = .rising := by
  revert h
  cases a <;> cases phase <;> cases edge <;> cases pend <;> decide

theorem idleRow_of_phase {r : Rows} (h : IdleRow r ∨ ActiveRow r) (hp : r.phase = .idle) : IdleRow r := by
  rcases h with hidle | ⟨hactive, -⟩
  · exact hidle
  · rw [hp] at hactive
    cases hactive

theorem activeRow_of_phase {r : Rows} (h : IdleRow r ∨ ActiveRow r) (hp : r.phase = .active) : ActiveRow r := by
  rcases h with ⟨hidle, -⟩ | hactive
  · rw [hp] at hidle
    cases hidle
  · exact hactive

/-- Only the three micro-programs of the block are entered. -/
theorem EntryRow.program {act : Program} {r : Rows} (h : EntryRow act r) :
    act = .start ∨ act = .byte ∨ act = .endAction := by
  cases act with
  | start => exact .inl rfl
  | byte => exact .inr (.inl rfl)
  | endAction => exact .inr (.inr rfl)
  | single u => exact h.elim

/-- START leads from row Idle to row Active (R102). -/
theorem activeRow_after_start {r : Rows} (h : IdleRow r) (hcur : r.cur = .low) : ActiveRow (runRows startWords r) := by
  obtain ⟨-, -, hexp, hout⟩ := h
  rw [startWords_rows]
  simp [ActiveRow, Outputs.initial, Level.not, *]

/-- Each action ends in a row of R22. -/
theorem EntryRow.ends_in_row {act : Program} {r : Rows} (h : EntryRow act r) :
    IdleRow (runRows (programWords act) r) ∨ ActiveRow (runRows (programWords act) r) := by
  cases act with
  | start =>
    obtain ⟨hidle, hcur⟩ := h
    exact .inr (activeRow_after_start hidle hcur)
  | byte => exact .inr (activeRow_after_byte h r.cur)
  | endAction =>
    obtain ⟨hactive, hcur⟩ := h
    have hend := idleRow_after_end hactive
    rw [← hcur] at hend
    exact .inl hend
  | single u => exact h.elim

theorem sessionInv_enter {s : State} {act : Program} (hdly : s.dly = 0) (h : EntryRow act s.rows) :
    SessionInv (enter s act) := by
  have hwait : WaitOfDelay act 0 s.dly := hdly ▸ waitOfDelay_zero act 0
  exact (sessionInv_run rfl).mpr ⟨Nat.zero_le _, hwait, s.rows, h, rfl⟩

/-- From a row of R22 a poll point stays in it or enters an action as the action's entry asks. -/
theorem sessionInv_selected {s : State} {a : Action} (hrow : IdleRow s.rows ∨ ActiveRow s.rows) (hdly : s.dly = 0)
    (ha : dispatch s.phase (classify s.prev s.framing) (pendOf s.pcnt s.exp) = some a) :
    SessionInv (selected a (polled s)) := by
  have hsel := dispatch_some ha
  cases a with
  | nop => exact (sessionInv_poll rfl).mpr hrow
  | start =>
    obtain ⟨hphase, hedge⟩ := hsel
    exact sessionInv_enter hdly ⟨idleRow_of_phase hrow hphase, (classify_eq_falling hedge).2⟩
  | byte =>
    have hactive : ActiveRow s.rows := activeRow_of_phase hrow hsel
    exact sessionInv_enter hdly hactive
  | endAction =>
    obtain ⟨hphase, hedge⟩ := hsel
    exact sessionInv_enter hdly ⟨activeRow_of_phase hrow hphase, (classify_eq_rising hedge).2⟩

/-- At the end of its micro-program an action has come to a row of R22, and the block goes back to the poll point with it. -/
theorem sessionInv_endIteration {s : State} {act : Program} (hs : SessionInv s)
    (hseq : s.seq = .run act (programWords act).length) : SessionInv (endIteration s) := by
  obtain ⟨-, -, entry, hentry, hrows⟩ := (sessionInv_run hseq).mp hs
  rw [List.take_length] at hrows
  rw [endIteration_eq, sessionInv_poll rfl]
  show IdleRow s.rows ∨ ActiveRow s.rows
  rw [hrows]
  exact hentry.ends_in_row

/-- One micro-operation takes the rows one word on from the action's entry (R90, step kind 2). -/
theorem sessionInv_micro {s t : State} {act : Program} {upc : Nat} {u : MicroWord} {i : Instr} (hs : SessionInv s)
    (hdly : s.dly = 0) (hseq : s.seq = .run act upc) (hu : (programWords act)[upc]? = some u)
    (hi : decodeMicro u = .ok i) (effect : MicroEffect i (advanced s) t) : SessionInv t := by
  obtain ⟨-, -, entry, hentry, hrows⟩ := (sessionInv_run hseq).mp hs
  have hadv := advanced_run hseq
  have htseq : t.seq = .run act (upc + 1) := by rw [effect.rest, hadv]
  have htdly : t.dly = microDly i 0 := by rw [effect.dly, hadv, hdly]
  have htrows : t.rows = microRows i s.rows := by rw [effect.rows, hadv]; rfl
  obtain ⟨hupc, -⟩ := List.getElem?_eq_some_iff.mp hu
  rw [sessionInv_run htseq, htdly, htrows]
  refine ⟨hupc, waitOfDelay_microDly hu hi, entry, hentry, ?_⟩
  rw [runRows_take_succ hentry.program hu hi, hrows]

/-- Settles O11: stimuli and waits hold the rows and the position; a poll point stays in its row or enters an action; a micro-operation
goes one word on; the end of an action is a row of R22 again. -/
theorem stepKeepsTheSessionInvariant : Obligations.StepKeepsTheSessionInvariant := by
  intro s t hs h
  cases step_cases h with
  | @environment e rest turn due eq =>
    obtain ⟨hrows, hseq, hdly, -⟩ := environmentStep_frame s e rest
    exact eq ▸ hs.of_held hrows hseq hdly.le
  | wait turn dly eq =>
    have hheld := tick_held s
    exact eq ▸ hs.of_held hheld.rows hheld.seq (Nat.sub_le _ _)
  | iterationEnd turn dly seq eq => exact eq ▸ sessionInv_endIteration hs seq
  | micro turn dly seq word decoded run effect => exact sessionInv_micro hs dly seq word decoded effect
  | poll turn dly seq action eq => exact eq ▸ sessionInv_selected ((sessionInv_poll seq).mp hs) dly action

end Sys2Proof.Machine

/-! PROOFS. The environment: the step of a due stimulus, both orders of a fall of `PREQ` and RSTCNT at one instant, and the script that every
step keeps on time. -/

namespace Sys2Proof.Machine

/-! ### When a stimulus is due -/

theorem dueStimulus_nil {s : State} (henv : s.env = []) : dueStimulus s = none := by
  unfold dueStimulus
  rw [henv]

/-- The head of the stimuli alone says whether one is due. -/
theorem dueStimulus_cons {s : State} {e : Stimulus} {rest : List Stimulus} (henv : s.env = e :: rest) :
    dueStimulus s = if e.due s.now then some (e, rest) else none := by
  unfold dueStimulus
  rw [henv]

theorem Stimulus.due_iff {e : Stimulus} {now : Nat} : e.due now = true ↔ e.time < now ∨ (e.time = now ∧ e.skip = 0) := by
  simp [Stimulus.due]

/-- A stimulus of the present time with no step left to wait for is due (R57). -/
theorem dueStimulus_of_time {s : State} {e : Stimulus} {rest : List Stimulus} (henv : s.env = e :: rest)
    (htime : e.time = s.now) (hskip : e.skip = 0) : dueStimulus s = some (e, rest) := by
  rw [dueStimulus_cons henv]
  exact if_pos (Stimulus.due_iff.mpr (.inr ⟨htime, hskip⟩))

/-- A stimulus of the present time that has a step to wait for is not due (log 1). -/
theorem dueStimulus_of_skip {s : State} {e : Stimulus} {rest : List Stimulus} (henv : s.env = e :: rest)
    (htime : e.time = s.now) (hskip : e.skip ≠ 0) : dueStimulus s = none := by
  rw [dueStimulus_cons henv]
  exact if_neg (by rw [Stimulus.due_iff]; omega)

theorem step_due {s : State} {e : Stimulus} {rest : List Stimulus} (hdue : dueStimulus s = some (e, rest))
    (hphase : s.phase ≠ .reserved) : step s = .next (environmentStep s e rest) :=
  step_environment (nextTurn_environment hdue hphase)

/-- Where a stimulus is due, a step that answers takes it: in the reserved phase, which would not, there is no step (R46). -/
theorem nextTurn_of_step_due {s t : State} {e : Stimulus} {rest : List Stimulus} (h : step s = .next t)
    (hdue : dueStimulus s = some (e, rest)) : nextTurn s = .environment e rest := by
  by_cases hphase : s.phase = .reserved
  · have hturn : nextTurn s = .refuse .reservedPhaseHeld := by simp [nextTurn, refuseReservedPhase, hdue, hphase]
    rw [step_refuse hturn] at h
    cases h
  · exact nextTurn_environment hdue hphase

/-- Settles O20: the step is the stimulus's, and on `FRAMING` that drives the line alone. -/
theorem stimulusOnFramingChangesTheLineAlone : Obligations.StimulusOnFramingChangesTheLineAlone := by
  intro s e rest hdue hphase hline
  rw [step_due hdue hphase, environmentStep, hline, driveLine_framing]
  rfl

/-! ### A fall of `PREQ` and RSTCNT at one instant -/

/-- A sequencer step at a stimulus's time is one of the steps that the stimulus waits for (log 1). -/
theorem passStimulus_of_time {s : State} {e : Stimulus} {rest : List Stimulus} (henv : s.env = e :: rest)
    (htime : e.time = s.now) : (passStimulus s).env = { e with skip := e.skip - 1 } :: rest := by
  simp [passStimulus, henv, htime]

/-- The step that runs RSTCNT in its place in END (R71, R106). -/
theorem step_rstcnt {s : State} (hdue : dueStimulus s = none) (hdly : s.dly = 0) (hphase : s.phase ≠ .reserved)
    (hseq : s.seq = .run .endAction 68) :
    step s = .next { s with pcnt := 0, seq := .run .endAction 69, env := (passStimulus s).env } := by
  have hword : (programWords .endAction)[68]? = some 0x80 := by decide
  have hturn : nextTurn s = .micro .rstcnt := nextTurn_micro hdue hdly hphase hseq hword rfl
  rw [step_micro hturn, advanced_run hseq]
  rfl

theorem run_two {s u t : State} (h : step s = .next u) (h' : step u = .next t) : Sys2Proof.core.run 2 s = .next t := by
  rw [run_succ h, run_one h']

section Race

variable {s : State} {e : Stimulus} (henv : s.env = [e]) (htime : e.time = s.now) (hdly : s.dly = 0)
  (hphase : s.phase ≠ .reserved) (hseq : s.seq = .run .endAction 68)

include henv htime hdly hphase hseq

/-- The stimulus first: RSTCNT then zeroes whatever it has counted (R41). -/
theorem stimulus_before_rstcnt (hskip : e.skip = 0) :
    ∃ t, Sys2Proof.core.run 2 s = .next t ∧ t.pcnt = 0 ∧ t.now = s.now := by
  have hstimulus := step_due (dueStimulus_of_time henv htime hskip) hphase
  rw [environmentStep_eq] at hstimulus
  exact ⟨_, run_two hstimulus (step_rstcnt (dueStimulus_nil rfl) hdly hphase hseq), rfl, rfl⟩

/-- RSTCNT first: the stimulus, a fall of `PREQ`, then counts from 0 (R41). -/
theorem fall_after_rstcnt (hskip : e.skip = 1) (hline : e.line = .preq) (hlevel : e.level = .low)
    (hlast : s.preqLast = .high) : ∃ t, Sys2Proof.core.run 2 s = .next t ∧ t.pcnt = 1 ∧ t.now = s.now := by
  have hnotdue : dueStimulus s = none := dueStimulus_of_skip henv htime (by omega)
  have hreset := step_rstcnt hnotdue hdly hphase hseq
  rw [passStimulus_of_time henv htime, hskip] at hreset
  refine ⟨_, run_two hreset (step_due (dueStimulus_of_time rfl htime rfl) hphase), ?_, ?_⟩
  · rw [environmentStep_pcnt]
    exact if_pos ⟨hline, hlevel, hlast⟩
  · rw [environmentStep_eq]

end Race

/-- Settles O24: no step left to wait for puts the fall before RSTCNT, one such step puts it behind. -/
theorem fallAtTheCounterResetHasBothOrders : Obligations.FallAtTheCounterResetHasBothOrders := by
  intro s hseq hdly hphase hlast
  exact ⟨stimulus_before_rstcnt rfl rfl hdly hphase hseq rfl, fall_after_rstcnt rfl rfl hdly hphase hseq rfl rfl rfl hlast⟩

/-! ### The script on time -/

@[simp] theorem selected_env (a : Action) (s : State) : (selected a s).env = s.env := by cases a <;> rfl

@[simp] theorem selected_now (a : Action) (s : State) : (selected a s).now = s.now := by cases a <;> rfl

/-- A sequencer step leaves the stimuli alone where none is of the present time. -/
theorem passStimulus_of_lt {s : State} (h : ∀ e ∈ s.env, s.now < e.time) : (passStimulus s).env = s.env := by
  cases henv : s.env with
  | nil => exact passStimulus_nil henv
  | cons e rest =>
    have hne : e.time ≠ s.now := (h e (by simp [henv])).ne'
    simp [passStimulus, henv, hne]

/-- What a step makes of the stimuli and the time: a due stimulus is taken at once, and without one the sequencer passes the stimuli by
and at most one time-unit passes. -/
theorem step_env_now {s t : State} (h : step s = .next t) :
    (∃ e rest, dueStimulus s = some (e, rest) ∧ t.env = rest ∧ t.now = s.now) ∨
      (dueStimulus s = none ∧ t.env = (passStimulus s).env ∧ t.now ≤ s.now + 1) := by
  cases hdue : dueStimulus s with
  | some due =>
    obtain ⟨e, rest⟩ := due
    rw [step_environment (nextTurn_of_step_due h hdue)] at h
    cases h
    rw [environmentStep_eq]
    exact .inl ⟨e, rest, rfl, rfl, rfl⟩
  | none =>
    refine .inr ⟨rfl, ?_⟩
    cases step_cases h with
    | environment turn due eq => rw [hdue] at due; cases due
    | wait turn dly eq => rw [eq, tick_eq]; exact ⟨rfl, le_rfl⟩
    | iterationEnd turn dly seq eq => rw [eq, endIteration_eq]; exact ⟨rfl, Nat.le_succ _⟩
    | micro turn dly seq word decoded run effect =>
      rw [effect.rest, advanced_run seq]
      exact ⟨rfl, Nat.le_succ _⟩
    | poll turn dly seq action eq =>
      rw [eq, selected_env, selected_now]
      exact ⟨rfl, Nat.le_succ _⟩

/-- With the script on time and nothing due, every stimulus is of a later time. -/
theorem ScriptOnTime.lt_of_not_due {s : State} (hs : ScriptOnTime s) (hdue : dueStimulus s = none) :
    ∀ e ∈ s.env, s.now < e.time := by
  obtain ⟨horder, hahead⟩ := hs
  cases henv : s.env with
  | nil => simp
  | cons e rest =>
    rw [henv] at horder hahead
    obtain ⟨hle, hskip⟩ := hahead e List.mem_cons_self
    have hhead : s.now < e.time := by
      by_contra hlt
      rw [dueStimulus_of_time henv (by omega) hskip] at hdue
      cases hdue
    exact List.forall_mem_cons.mpr ⟨hhead, fun x hx => hhead.trans_le (List.rel_of_pairwise_cons horder hx)⟩

/-- Taking the first stimulus at the present time keeps the script on time. -/
theorem ScriptOnTime.of_tail {s t : State} {e : Stimulus} (hs : ScriptOnTime s) (henv : s.env = e :: t.env)
    (hnow : t.now = s.now) : ScriptOnTime t := by
  obtain ⟨horder, hahead⟩ := hs
  rw [henv] at horder hahead
  rw [← hnow] at hahead
  exact ⟨horder.of_cons, fun x hx => hahead x (List.mem_cons_of_mem e hx)⟩

/-- Waiting while every stimulus is of a later time keeps the script on time. -/
theorem ScriptOnTime.of_env_eq {s t : State} (hs : ScriptOnTime s) (henv : t.env = s.env)
    (hnow : ∀ e ∈ s.env, t.now ≤ e.time) : ScriptOnTime t := by
  obtain ⟨horder, hahead⟩ := hs
  unfold ScriptOnTime
  rw [henv]
  exact ⟨horder, fun e he => ⟨hnow e he, (hahead e he).2⟩⟩

/-- A script on time is on time after every step. -/
theorem ScriptOnTime.of_step {s t : State} (hs : ScriptOnTime s) (h : step s = .next t) : ScriptOnTime t := by
  rcases step_env_now h with ⟨e, rest, hdue, henv, hnow⟩ | ⟨hdue, henv, hnow⟩
  · obtain ⟨hhead, -⟩ := dueStimulus_some hdue
    exact hs.of_tail (henv ▸ hhead) hnow
  · have hlater := hs.lt_of_not_due hdue
    rw [passStimulus_of_lt hlater] at henv
    exact hs.of_env_eq henv fun e he => hnow.trans (hlater e he)

/-- A stimulus of a script on time is due at its own time and no later. -/
theorem ScriptOnTime.time_of_due {s : State} {e : Stimulus} {rest : List Stimulus} (hs : ScriptOnTime s)
    (hdue : dueStimulus s = some (e, rest)) : e.time = s.now := by
  obtain ⟨henv, hdue⟩ := dueStimulus_some hdue
  obtain ⟨-, hahead⟩ := hs
  obtain ⟨hle, -⟩ := hahead e (by simp [henv])
  rcases Stimulus.due_iff.mp hdue with hlt | ⟨htime, -⟩
  · omega
  · exact htime

/-- The environment's turn is that of the due stimulus. -/
theorem dueStimulus_of_nextTurn {s : State} {e : Stimulus} {rest : List Stimulus}
    (hturn : nextTurn s = .environment e rest) : dueStimulus s = some (e, rest) := by
  have hturnOf := turnOf s
  rw [hturn] at hturnOf
  cases hturnOf with
  | environment due phase => exact due

/-- Settles O56: a step takes the due stimulus or passes the script by while all of it is later; with the script on time, to be due is to
be of the present time. -/
theorem stepKeepsTheScriptOnTime : Obligations.StepKeepsTheScriptOnTime := by
  intro s t hs h
  refine ⟨hs.of_step h, fun e rest henv htime => ?_, fun e rest hturn => hs.time_of_due (dueStimulus_of_nextTurn hturn)⟩
  obtain ⟨-, hahead⟩ := hs
  obtain ⟨-, hskip⟩ := hahead e (by simp [henv])
  exact nextTurn_of_step_due h (dueStimulus_of_time henv htime hskip)

end Sys2Proof.Machine

/-! PROOFS. The encodings: values and their bits, the decoder of format U by its operation, decoding and encoding undo each other, and the
words that are written out or refused. -/

namespace Sys2Proof

/-! ### Values and their bits -/

@[simp] theorem Phase.ofCode_code (p : Phase) : Phase.ofCode p.code = p := by cases p <;> rfl

@[simp] theorem Phase.code_ofCode (c : BitVec 2) : (Phase.ofCode c).code = c := by revert c; decide

theorem Phase.code_eq_three_iff {p : Phase} : p.code = 0b11#2 ↔ p = .reserved := by cases p <;> decide

@[simp] theorem LineSet.ofMask_mask (lines : LineSet) : LineSet.ofMask lines.mask = lines := by
  obtain ⟨sioClk, spiClk, sync, flow⟩ := lines
  revert sioClk spiClk sync flow
  decide

@[simp] theorem LineSet.mask_ofMask (m : BitVec 4) : (LineSet.ofMask m).mask = m := by revert m; decide

theorem Instr.wf_dly {n : Nat} : (Instr.dly n).wf = true ↔ 1 ≤ n ∧ n ≤ 31 := by simp [Instr.wf]

theorem Instr.wf_setphase {p : Phase} : (Instr.setphase p).wf = true ↔ p ≠ .reserved := by simp [Instr.wf]

theorem edgeWordOf_bits (prev cur : Level) :
    (edgeWordOf prev cur).getLsbD 1 = prev.bit ∧ (edgeWordOf prev cur).getLsbD 0 = cur.bit := by
  cases prev <;> cases cur <;> decide

/-- An edge word is made of its two bits (R47). -/
theorem edgeWordOf_ofBit (e : EdgeWord) :
    edgeWordOf (Level.ofBit (e.getLsbD 1)) (Level.ofBit (e.getLsbD 0)) = e := by
  revert e; decide

/-- A dispatch word is made of its phase, its edge word and `pend` (R48). -/
theorem dispatchWordOf_ofBit (d : DispatchWord) :
    dispatchWordOf (Phase.ofCode (d.extractLsb' 3 2)) (Level.ofBit ((d.extractLsb' 1 2).getLsbD 1))
      (Level.ofBit ((d.extractLsb' 1 2).getLsbD 0)) (d.getLsbD 0) = d := by
  revert d; decide

/-! ### Format U by its operation (R51, R53) -/

/-- The operand of `TGL` and `SET` is a bit and a mask. -/
theorem bit_append_mask (a : BitVec 5) : BitVec.ofBool (a.getLsbD 4) ++ a.extractLsb' 0 4 = a := by
  revert a; decide

theorem getLsbD_bit_append_mask (b : Bool) (m : BitVec 4) : (BitVec.ofBool b ++ m).getLsbD 4 = b := by
  rw [BitVec.getLsbD_append]
  simp

section Operations

variable (a : BitVec 5)

theorem decodeMicro_tgl_append :
    decodeMicro (0b000#3 ++ a) =
      if a.getLsbD 4 then .error .toggleLevelBit
      else if (LineSet.ofMask (a.extractLsb' 0 4)).nonEmpty then .ok (.tgl (LineSet.ofMask (a.extractLsb' 0 4)))
      else .error .emptyLineSet := by
  have hmask : 0 + 4 ≤ 5 := by decide
  simp only [decodeMicro, BitVec.extractLsb'_append_eq_left, BitVec.extractLsb'_append_eq_right,
    BitVec.extractLsb'_append_eq_of_add_le hmask]
  rfl

theorem decodeMicro_set_append :
    decodeMicro (0b001#3 ++ a) =
      if (LineSet.ofMask (a.extractLsb' 0 4)).nonEmpty then
        .ok (.set (Level.ofBit (a.getLsbD 4)) (LineSet.ofMask (a.extractLsb' 0 4)))
      else .error .emptyLineSet := by
  have hmask : 0 + 4 ≤ 5 := by decide
  simp only [decodeMicro, BitVec.extractLsb'_append_eq_left, BitVec.extractLsb'_append_eq_right,
    BitVec.extractLsb'_append_eq_of_add_le hmask]
  rfl

theorem decodeMicro_dly_append :
    decodeMicro (0b010#3 ++ a) = if a = 0#5 then .error .zeroDelay else .ok (.dly a.toNat) := by
  simp only [decodeMicro, BitVec.extractLsb'_append_eq_left, BitVec.extractLsb'_append_eq_right]
  rfl

theorem decodeMicro_rstexp_append : decodeMicro (0b011#3 ++ a) = decodeBare a .rstexp := by
  simp only [decodeMicro, BitVec.extractLsb'_append_eq_left, BitVec.extractLsb'_append_eq_right]
  rfl

theorem decodeMicro_rstcnt_append : decodeMicro (0b100#3 ++ a) = decodeBare a .rstcnt := by
  simp only [decodeMicro, BitVec.extractLsb'_append_eq_left, BitVec.extractLsb'_append_eq_right]
  rfl

theorem decodeMicro_incexp_append : decodeMicro (0b101#3 ++ a) = decodeBare a .incexp := by
  simp only [decodeMicro, BitVec.extractLsb'_append_eq_left, BitVec.extractLsb'_append_eq_right]
  rfl

theorem decodeMicro_latchprev_append : decodeMicro (0b110#3 ++ a) = decodeBare a .latchprev := by
  simp only [decodeMicro, BitVec.extractLsb'_append_eq_left, BitVec.extractLsb'_append_eq_right]
  rfl

theorem decodeMicro_setphase_append :
    decodeMicro (0b111#3 ++ a) =
      if a.extractLsb' 2 3 ≠ 0#3 then .error .strayPhaseBits
      else if a.extractLsb' 0 2 = 0b11#2 then .error .reservedPhase
      else .ok (.setphase (Phase.ofCode (a.extractLsb' 0 2))) := by
  simp only [decodeMicro, BitVec.extractLsb'_append_eq_left, BitVec.extractLsb'_append_eq_right]
  rfl

end Operations

theorem decodeBare_eq_ok_iff {a : BitVec 5} {i j : Instr} : decodeBare a i = .ok j ↔ a = 0#5 ∧ j = i := by
  unfold decodeBare
  split
  · next h => simp [h, eq_comm]
  · next h => simp [h]

/-! ### Decoding the word of an instruction -/

theorem decodeMicro_tgl_word {lines : LineSet} (h : lines.nonEmpty = true) :
    decodeMicro (0b000#3 ++ (0#1 ++ lines.mask)) = .ok (.tgl lines) := by
  have hbit : (0#1 ++ lines.mask).getLsbD 4 = false := getLsbD_bit_append_mask false _
  rw [decodeMicro_tgl_append, hbit, BitVec.extractLsb'_append_eq_right, LineSet.ofMask_mask, h]
  rfl

theorem decodeMicro_set_word {lines : LineSet} (level : Level) (h : lines.nonEmpty = true) :
    decodeMicro (0b001#3 ++ (BitVec.ofBool level.bit ++ lines.mask)) = .ok (.set level lines) := by
  have hbit : (BitVec.ofBool level.bit ++ lines.mask).getLsbD 4 = level.bit := getLsbD_bit_append_mask _ _
  rw [decodeMicro_set_append, hbit, BitVec.extractLsb'_append_eq_right, LineSet.ofMask_mask, Level.ofBit_bit, if_pos h]

theorem decodeMicro_dly_word {n : Nat} (hlow : 1 ≤ n) (hhigh : n ≤ 31) :
    decodeMicro (0b010#3 ++ BitVec.ofNat 5 n) = .ok (.dly n) := by
  have htoNat : (BitVec.ofNat 5 n).toNat = n := by
    rw [BitVec.toNat_ofNat]
    exact Nat.mod_eq_of_lt (by omega)
  have hne : BitVec.ofNat 5 n ≠ 0#5 := by
    intro h0
    have hzero : (BitVec.ofNat 5 n).toNat = 0 := congrArg BitVec.toNat h0
    omega
  rw [decodeMicro_dly_append, if_neg hne, htoNat]

theorem decodeMicro_setphase_word {p : Phase} (h : p ≠ .reserved) :
    decodeMicro (0b111#3 ++ (0#3 ++ p.code)) = .ok (.setphase p) := by
  have hhigh : (0#3 ++ p.code).extractLsb' 2 3 = 0#3 := BitVec.extractLsb'_append_eq_left
  have hlow : (0#3 ++ p.code).extractLsb' 0 2 = p.code := BitVec.extractLsb'_append_eq_right
  have hcode : p.code ≠ 0b11#2 := Phase.code_eq_three_iff.not.mpr h
  rw [decodeMicro_setphase_append, hhigh, hlow, if_neg (not_not.mpr rfl), if_neg hcode, Phase.ofCode_code]

/-- Settles O1: a word of formats E and D has its bits in the fields of the instruction; in format U the decoder of the operation gets the
operand field back, which a well-formed operand keeps out of the refused words. -/
theorem decodeOfEncodeIsIdentity : Obligations.DecodeOfEncodeIsIdentity := by
  intro i h
  cases i with
  | start pend => cases pend <;> rfl
  | byte prev cur => cases prev <;> cases cur <;> rfl
  | endAction => rfl
  | nopIdleLow cur pend => cases cur <;> cases pend <;> rfl
  | nopIdleHigh pend => cases pend <;> rfl
  | nopActiveLow => rfl
  | nopActiveHigh cur => cases cur <;> rfl
  | reserved upper prev cur pend => cases upper <;> cases prev <;> cases cur <;> cases pend <;> rfl
  | edgeFall => rfl
  | edgeRise => rfl
  | edgeNoneLow => rfl
  | edgeNoneHigh => rfl
  | tgl lines => exact decodeMicro_tgl_word h
  | set level lines => exact decodeMicro_set_word level h
  | dly n =>
    obtain ⟨hlow, hhigh⟩ := Instr.wf_dly.mp h
    exact decodeMicro_dly_word hlow hhigh
  | rstexp => rfl
  | rstcnt => rfl
  | incexp => rfl
  | latchprev => rfl
  | setphase p => exact decodeMicro_setphase_word (Instr.wf_setphase.mp h)

/-! ### The word of what a word decodes to -/

theorem encode_decodeEdge (e : EdgeWord) : (decodeEdge e).wf = true ∧ encode (decodeEdge e) = .edge e := by
  revert e; decide

theorem encode_decodeDispatch (d : DispatchWord) :
    (decodeDispatch d).wf = true ∧ encode (decodeDispatch d) = .dispatch d := by
  revert d; decide

theorem operation_cases (op : BitVec 3) :
    op = 0b000#3 ∨ op = 0b001#3 ∨ op = 0b010#3 ∨ op = 0b011#3 ∨ op = 0b100#3 ∨ op = 0b101#3 ∨ op = 0b110#3 ∨
      op = 0b111#3 := by
  revert op; decide

/-- The word of the well-formed instruction that an operation's word decodes to is that word; so for each operation below. -/
def DecodesItsOwnWords (op : BitVec 3) : Prop :=
  ∀ (a : BitVec 5) (i : Instr), decodeMicro (op ++ a) = .ok i → i.wf = true ∧ encode i = microWord op a

theorem tgl_decodesItsOwnWords : DecodesItsOwnWords 0b000#3 := by
  intro a i h
  have hword := bit_append_mask a
  rw [decodeMicro_tgl_append] at h
  split at h
  · cases h
  · next hbit =>
    rw [Bool.eq_false_iff.mpr hbit] at hword
    split at h
    · next hne =>
      cases h
      exact ⟨hne, by rw [encode, LineSet.mask_ofMask]; exact congrArg (microWord _) hword⟩
    · cases h

theorem set_decodesItsOwnWords : DecodesItsOwnWords 0b001#3 := by
  intro a i h
  rw [decodeMicro_set_append] at h
  split at h
  · next hne =>
    cases h
    exact ⟨hne, by rw [encode, LineSet.mask_ofMask, Level.bit_ofBit, bit_append_mask]⟩
  · cases h

theorem dly_decodesItsOwnWords : DecodesItsOwnWords 0b010#3 := by
  intro a i h
  rw [decodeMicro_dly_append] at h
  split at h
  · cases h
  · next hne =>
    cases h
    have hpos : a.toNat ≠ 0 := fun h0 => hne (BitVec.eq_of_toNat_eq h0)
    exact ⟨Instr.wf_dly.mpr (by omega), by rw [encode, BitVec.ofNat_toNat, BitVec.setWidth_eq]⟩

theorem setphase_decodesItsOwnWords : DecodesItsOwnWords 0b111#3 := by
  intro a i h
  have hword : a.extractLsb' 2 3 ++ a.extractLsb' 0 2 = a := BitVec.extractLsb'_append_extractLsb'
  rw [decodeMicro_setphase_append] at h
  split at h
  · cases h
  · next hstray =>
    rw [not_not.mp hstray] at hword
    split at h
    · cases h
    · next hcode =>
      cases h
      have hp : Phase.ofCode (a.extractLsb' 0 2) ≠ .reserved := by
        rwa [ne_eq, ← Phase.code_eq_three_iff, Phase.code_ofCode]
      exact ⟨Instr.wf_setphase.mpr hp, by rw [encode, Phase.code_ofCode]; exact congrArg (microWord _) hword⟩

/-- An operation without operand has one word. -/
theorem bare_decodesItsOwnWords {op : BitVec 3} {j : Instr} (hop : ∀ a, decodeMicro (op ++ a) = decodeBare a j)
    (hwf : j.wf = true) (hword : encode j = microWord op 0#5) : DecodesItsOwnWords op := by
  intro a i h
  rw [hop, decodeBare_eq_ok_iff] at h
  obtain ⟨rfl, rfl⟩ := h
  exact ⟨hwf, hword⟩

theorem decodesItsOwnWords (op : BitVec 3) : DecodesItsOwnWords op := by
  rcases operation_cases op with rfl | rfl | rfl | rfl | rfl | rfl | rfl | rfl
  · exact tgl_decodesItsOwnWords
  · exact set_decodesItsOwnWords
  · exact dly_decodesItsOwnWords
  · exact bare_decodesItsOwnWords decodeMicro_rstexp_append rfl rfl
  · exact bare_decodesItsOwnWords decodeMicro_rstcnt_append rfl rfl
  · exact bare_decodesItsOwnWords decodeMicro_incexp_append rfl rfl
  · exact bare_decodesItsOwnWords decodeMicro_latchprev_append rfl rfl
  · exact setphase_decodesItsOwnWords

theorem encode_of_decodeMicro {u : MicroWord} {i : Instr} (h : decodeMicro u = .ok i) :
    i.wf = true ∧ encode i = .micro u := by
  have hfields : u.extractLsb' 5 3 ++ u.extractLsb' 0 5 = u := BitVec.extractLsb'_append_extractLsb'
  rw [← hfields] at h ⊢
  exact decodesItsOwnWords _ _ i h

/-- Settles O2: format by format, an instruction's fields are the bits it was decoded from, and format U refuses the operands that are not
well formed. -/
theorem encodeOfDecodeIsIdentity : Obligations.EncodeOfDecodeIsIdentity := by
  intro w i h
  cases w with
  | edge e =>
    cases h
    exact encode_decodeEdge e
  | dispatch d =>
    cases h
    exact encode_decodeDispatch d
  | micro u => exact encode_of_decodeMicro h

/-! ### Written-out words and refused words -/

/-- Settles O3: the four words are read one by one, and each bit is the level of its snapshot. -/
theorem edgeWordDecodesToItsClass : Obligations.EdgeWordDecodesToItsClass :=
  ⟨rfl, rfl, rfl, rfl, edgeWordOf_bits⟩

/-- Settles O4: the map is read at each of the 32 words. -/
theorem dispatchMapByMatchAndMask : Obligations.DispatchMapByMatchAndMask := by
  unfold Obligations.DispatchMapByMatchAndMask
  decide

theorem decodeMicro_error_iff (u : MicroWord) : (∃ e, decodeMicro u = .error e) ↔ (decodeMicro u).toBool = false := by
  cases decodeMicro u with
  | ok i => simp [Except.toBool]
  | error e => simp [Except.toBool]

/-- Settles O6: a check of the 256 words, and the micro-programs' words all decode. -/
theorem malformedMicroWordsAreRefused : Obligations.MalformedMicroWordsAreRefused := by
  refine ⟨?_, fun _ hact => Machine.programWords_decode hact, rfl⟩
  simp only [decodeMicro_error_iff]
  decide

/-- Settles O7: each word is read. -/
theorem writtenOutWordsDecode : Obligations.WrittenOutWordsDecode := by
  unfold Obligations.WrittenOutWordsDecode
  decide

end Sys2Proof

/-! PROOFS. Words in the machine: a word by its length, the terms no word stands for, the dispatch words that are refused, and the word
placed for the next step. -/

namespace Sys2Proof.Machine

/-! ### A word by its length (R58) -/

theorem wordOfLength_length_bits (w : TableWord) : wordOfLength w.length w.bits = some w := by
  cases w with
  | edge e =>
    have hlt : e.toNat < 4 := e.isLt
    simp [TableWord.length, TableWord.bits, wordOfLength, hlt]
  | dispatch d =>
    have hlt : d.toNat < 32 := d.isLt
    simp [TableWord.length, TableWord.bits, wordOfLength, hlt]
  | micro u =>
    have hlt : u.toNat < 256 := u.isLt
    simp [TableWord.length, TableWord.bits, wordOfLength, hlt]

theorem length_bits_of_wordOfLength {n b : Nat} {w : TableWord} (h : wordOfLength n b = some w) :
    w.length = n ∧ w.bits = b := by
  unfold wordOfLength at h
  repeat' split at h
  all_goals cases h
  · exact ⟨rfl, Nat.mod_eq_of_lt ‹b < 4›⟩
  · exact ⟨rfl, Nat.mod_eq_of_lt ‹b < 32›⟩
  · exact ⟨rfl, Nat.mod_eq_of_lt ‹b < 256›⟩

theorem wordOfLength_eq_none {n : Nat} (b : Nat) (hedge : n ≠ 2) (hdispatch : n ≠ 5) (hmicro : n ≠ 8) :
    wordOfLength n b = none := by
  cases h : wordOfLength n b with
  | none => rfl
  | some w =>
    obtain ⟨hlength, -⟩ := length_bits_of_wordOfLength h
    cases w with
    | edge e => exact absurd hlength.symm hedge
    | dispatch d => exact absurd hlength.symm hdispatch
    | micro u => exact absurd hlength.symm hmicro

/-- Settles O52: length and bits are read off the word of each format and give it back. -/
theorem eachFormatHasOneFixedLength : Obligations.EachFormatHasOneFixedLength :=
  ⟨wordOfLength_length_bits, fun _ _ _ => length_bits_of_wordOfLength, fun _ b => wordOfLength_eq_none b, fun _ => rfl,
    fun _ => rfl, fun _ => rfl⟩

/-! ### Terms without a word (R53) -/

theorem eq_empty_of_nonEmpty {lines : LineSet} (h : lines.nonEmpty = false) : lines = {} := by
  obtain ⟨sioClk, spiClk, sync, flow⟩ := lines
  simp only [LineSet.nonEmpty, Bool.or_eq_false_iff] at h
  simp [h]

/-- No word decodes to a term that is not well formed. -/
theorem ne_of_decode_of_not_wf {w : TableWord} {i j : Instr} (h : decode w = .ok i) (hj : j.wf = false) : i ≠ j := by
  obtain ⟨hwf, -⟩ := encodeOfDecodeIsIdentity w i h
  rintro rfl
  rw [hj] at hwf
  cases hwf

/-- Settles O53: an empty set of lines moves nothing, the other two terms write their operand; none of them is well formed. -/
theorem termsWithoutAWordHaveTheirPlainEffect : Obligations.TermsWithoutAWordHaveTheirPlainEffect := by
  refine ⟨fun lines v s hempty => ?_, fun _ _ _ => rfl, fun _ => rfl, fun w i hdec => ?_⟩
  · rw [eq_empty_of_nonEmpty hempty]
    exact ⟨rfl, rfl⟩
  · refine ⟨fun lines v hempty => ?_, fun n hn => ?_, ne_of_decode_of_not_wf hdec rfl⟩
    · exact ⟨ne_of_decode_of_not_wf hdec hempty, ne_of_decode_of_not_wf hdec hempty⟩
    · have hwf : ¬ (Instr.dly n).wf = true := by
        rw [Instr.wf_dly]
        omega
      exact ne_of_decode_of_not_wf hdec (Bool.eq_false_iff.mpr hwf)

/-! ### The reserved dispatch words (R50) -/

theorem selectedAction_eq_none_iff (d : DispatchWord) :
    selectedAction (decodeDispatch d) = none ↔ d.getLsbD 4 = true := by
  revert d; decide

/-- A dispatch word's instruction answers a next state where it has an action. -/
theorem exec_decodeDispatch_next_iff (d : DispatchWord) (s : State) :
    (∃ t, exec (decodeDispatch d) s = .next t) ↔ selectedAction (decodeDispatch d) ≠ none := by
  have h := dispatch_effect d s
  cases ha : selectedAction (decodeDispatch d) with
  | none =>
    rw [ha] at h
    obtain ⟨r, hr⟩ := h
    simp [hr]
  | some a =>
    rw [ha] at h
    cases a <;> exact ⟨fun _ => by simp, fun _ => ⟨_, h⟩⟩

/-- Settles O33: only RESERVED has no action, and its words are those with `d[4] = 1`. -/
theorem reservedDispatchWordsAreRefused : Obligations.ReservedDispatchWordsAreRefused := by
  refine ⟨fun _ _ _ _ _ => rfl, fun d s => ?_, by decide, by decide⟩
  rw [exec_decodeDispatch_next_iff, ne_eq, selectedAction_eq_none_iff, Bool.not_eq_true]

/-! ### The word placed for the next step (log 11) -/

theorem edgeWord_sampled (s : State) : edgeWord (sampled s) = edgeWordOf s.prev s.framing := by
  rw [sampled_eq]
  rfl

theorem dispatchWord_sampled (s : State) :
    dispatchWord (sampled s) = dispatchWordOf s.phase s.prev s.framing (pendOf s.pcnt s.exp) := by
  rw [sampled_eq]
  rfl

theorem nextTurn_placeEdgeWord (s : State) (e : EdgeWord) : nextTurn (placeEdgeWord s e) = .poll :=
  nextTurn_poll (dueStimulus_withoutDue s) rfl rfl

theorem edgeWord_placeEdgeWord (s : State) (e : EdgeWord) : edgeWord (sampled (placeEdgeWord s e)) = e :=
  (edgeWord_sampled _).trans (edgeWordOf_ofBit e)

/-- A shadow count one behind the counter is a pending pulse, an equal one is none (R72). -/
theorem pendOf_ite (c : Count) (b : Bool) : pendOf c (if b then c - 1 else c) = b := by
  cases b with
  | true =>
    have hne : c ≠ c - 1 := by bv_omega
    simpa [pendOf] using hne
  | false => simp [pendOf]

theorem nextTurn_placeDispatchWord (s : State) (d : DispatchWord) : nextTurn (placeDispatchWord s d) = .poll :=
  nextTurn_poll (dueStimulus_withoutDue s) rfl rfl

theorem dispatchWord_placeDispatchWord (s : State) (d : DispatchWord) :
    dispatchWord (sampled (placeDispatchWord s d)) = d := by
  have hpend : pendOf (placeDispatchWord s d).pcnt (placeDispatchWord s d).exp = d.getLsbD 0 := pendOf_ite _ _
  rw [dispatchWord_sampled, hpend]
  exact dispatchWordOf_ofBit d

theorem nextTurn_placeMicroWord {s : State} {u : MicroWord} {i : Instr} (hphase : s.phase ≠ .reserved)
    (hdec : decodeMicro u = .ok i) : nextTurn (placeMicroWord s u) = .micro i :=
  nextTurn_micro (dueStimulus_withoutDue s) rfl hphase rfl rfl hdec

/-- Settles O38: no stimulus is due and no wait runs in the placed state, whose fields are the bits of the word. -/
theorem placedWordIsTheNextWord : Obligations.PlacedWordIsTheNextWord :=
  ⟨fun s d => ⟨nextTurn_placeDispatchWord s d, dispatchWord_placeDispatchWord s d⟩,
    fun s e => ⟨nextTurn_placeEdgeWord s e, edgeWord_placeEdgeWord s e⟩, fun _ _ _ => nextTurn_placeMicroWord⟩

end Sys2Proof.Machine

/-! PROOFS. Scripts: the order their stimuli are taken in, the stretch from one poll point to the next, and the encoding of a run. -/

namespace Sys2Proof.Machine

/-! ### Ordering a script -/

theorem orderStimuli_perm (es : List Stimulus) : (orderStimuli es).Perm es := by
  induction es using List.reverseRecOn with
  | nil => exact List.Perm.refl _
  | append_singleton es e ih =>
    rw [orderStimuli_concat]
    calc (insertStimulus e (orderStimuli es)).Perm (e :: orderStimuli es) := insertStimulus_perm e _
      List.Perm _ (e :: es) := ih.cons e
      List.Perm _ (es ++ [e]) := (List.perm_append_singleton e es).symm

theorem orderStimuli_ordered (es : List Stimulus) : (orderStimuli es).Pairwise fun a b => a.time ≤ b.time := by
  induction es using List.reverseRecOn with
  | nil => exact .nil
  | append_singleton es e ih =>
    rw [orderStimuli_concat]
    exact insertStimulus_ordered ih

/-- Those of one time stay in the order they were listed in (log 21). -/
theorem filter_orderStimuli (es : List Stimulus) (t : Nat) :
    (orderStimuli es).filter (fun e => decide (e.time = t)) = es.filter fun e => decide (e.time = t) := by
  induction es using List.reverseRecOn with
  | nil => rfl
  | append_singleton es e ih =>
    rw [orderStimuli_concat, filter_insertStimulus (orderStimuli_ordered es), ih, List.filter_append]

/-- Every stimulus of a script line comes before the sequencer's step at its time (R57). -/
theorem skip_of_mem_stimuli {line : ScriptLine} {e : Stimulus} (h : e ∈ line.stimuli) : e.skip = 0 := by
  cases line with
  | drive time line level =>
    cases List.mem_singleton.mp h
    rfl
  | pulse time width =>
    rcases List.mem_pair.mp h with rfl | rfl <;> rfl

theorem skip_of_mem_scriptStimuli {script : List ScriptLine} {e : Stimulus} (h : e ∈ scriptStimuli script) :
    e.skip = 0 := by
  obtain ⟨line, -, hline⟩ := List.mem_flatMap.mp ((orderStimuli_perm _).mem_iff.mp h)
  exact skip_of_mem_stimuli hline

/-- Settles O54: the script is ordered by insertion, one stimulus after the other as they are listed, and no line has a step to wait for. -/
theorem scriptIsTakenInTheOrderOfItsTimes : Obligations.ScriptIsTakenInTheOrderOfItsTimes :=
  fun _ => ⟨orderStimuli_ordered _, orderStimuli_perm _, filter_orderStimuli _, fun _ => skip_of_mem_scriptStimuli⟩

/-- Settles O55: the launch is at time 0. -/
theorem launchHasItsScriptOnTime : Obligations.LaunchHasItsScriptOnTime :=
  fun _ => ⟨orderStimuli_ordered _, fun _ he => ⟨Nat.zero_le _, skip_of_mem_scriptStimuli he⟩⟩

/-! ### The encoding of a run -/

theorem step_of_run_succ {k : Nat} {s t : State} (h : Sys2Proof.core.run (k + 1) s = .next t) :
    ∃ u, step s = .next u ∧ Sys2Proof.core.run k u = .next t := by
  cases hs : step s with
  | next u => exact ⟨u, rfl, by rw [← run_succ hs, h]⟩
  | fault r => cases r
  | refused r =>
    have hs' : Sys2Proof.core.step s = .refused r := hs
    simp only [Host.Core.run, hs'] at h
    cases h

/-- The encoding of a run is that of its parts (R57). -/
theorem runEncoding_add {a : Nat} (b : Nat) {s t : State} (h : Sys2Proof.core.run a s = .next t) :
    runEncoding (a + b) s = runEncoding a s ++ runEncoding b t := by
  induction a generalizing s with
  | zero =>
    cases h
    rw [Nat.zero_add]
    rfl
  | succ a ih =>
    obtain ⟨u, hu, hrun⟩ := step_of_run_succ h
    rw [Nat.add_right_comm, runEncoding_succ hu, runEncoding_succ hu, ih hrun, List.append_assoc]

/-! ### From one poll point to the next -/

/-- No poll point is met in the first `k` steps. -/
def PollFree (s : State) (k : Nat) : Prop :=
  ∀ (j : Nat) (u : State), j < k → Sys2Proof.core.run j s = .next u → nextTurn u ≠ .poll

theorem PollFree.add {s t : State} {a b : Nat} (h : PollFree s a) (hrun : Sys2Proof.core.run a s = .next t)
    (h' : PollFree t b) : PollFree s (a + b) := by
  intro j u hj hu
  by_cases hlt : j < a
  · exact h j u hlt hu
  · obtain ⟨i, rfl⟩ := Nat.exists_eq_add_of_le (not_lt.mp hlt)
    rw [run_add i hrun] at hu
    exact h' i u (by omega) hu

/-- A run that meets no poll point has no encoding. -/
theorem PollFree.runEncoding_eq_nil {k : Nat} {s : State} (h : PollFree s k) : runEncoding k s = [] := by
  induction k generalizing s with
  | zero => rfl
  | succ k ih =>
    have hfirst : stepEncoding s = [] := stepEncoding_of_not_poll (h 0 s (Nat.succ_pos k) (run_zero s))
    cases hs : step s with
    | next t =>
      have hrest : PollFree t k := fun j u hj hu => h (j + 1) u (Nat.succ_lt_succ hj) (by rw [run_succ hs, hu])
      rw [runEncoding_succ hs, hfirst, ih hrest, List.append_nil]
    | fault r => cases r
    | refused r => simp only [runEncoding, hs, hfirst, List.append_nil]

/-- The block comes to a poll point from `s`, and to none on the way. -/
def ReachesPoll (s : State) (k : Nat) (t : State) : Prop :=
  Sys2Proof.core.run k s = .next t ∧ nextTurn t = .poll ∧ PollFree s k

theorem ReachesPoll.of_run {s t u : State} {a b : Nat} (hrun : Sys2Proof.core.run a s = .next t) (hfree : PollFree s a)
    (h : ReachesPoll t b u) : ReachesPoll s (a + b) u := by
  obtain ⟨hrun', hturn, hfree'⟩ := h
  exact ⟨by rw [run_add b hrun, hrun'], hturn, hfree.add hrun hfree'⟩

/-- A wait at the poll position runs out at a poll point (log 4). -/
theorem reachesPoll_of_wait {s : State} (hseq : s.seq = .poll) (hphase : s.phase ≠ .reserved) :
    ∃ k t, ReachesPoll s k t := by
  obtain ⟨k, t, h⟩ := settles s hphase
  exact ⟨k, t, h.run, nextTurn_poll h.due h.dly (h.held.seq.trans hseq), h.noPoll⟩

/-- An action once entered runs to its end and the block goes back to the poll point (R90, R99). -/
theorem reachesPoll_of_action {s : State} {act : Program} (hact : act = .start ∨ act = .byte ∨ act = .endAction)
    (hseq : s.seq = .run act 0) (hphase : s.phase ≠ .reserved) : ∃ k t, ReachesPoll s k t := by
  obtain ⟨a, s₁, h⟩ := settles s hphase
  have hphase₁ : s₁.phase ≠ .reserved := by
    have hheld : s₁.phase = s.phase := congrArg Rows.phase h.held.rows
    rwa [hheld]
  obtain ⟨b, s₂, hrun₂, hseq₂, hdly₂, hdue₂, hphase₂, -, -, -, -, -, -, -, hfree₂⟩ :=
    runs_to_end act (programWords act) s₁ 0 rfl (programWords_decode hact) (h.held.seq.trans hseq) h.dly h.due hphase₁
  rw [Nat.zero_add] at hseq₂
  obtain ⟨c, s₃, hrun₃, hturn₃, -, -, -, -, hfree₃⟩ := returns_to_poll hseq₂ hdly₂ hdue₂ hphase₂
  have hend : ReachesPoll s₂ c s₃ := ⟨hrun₃, hturn₃, hfree₃⟩
  exact ⟨a + (b + c), s₃, .of_run h.run h.noPoll (.of_run hrun₂ hfree₂ hend)⟩

/-- Whatever an iteration selects, the block comes to the next poll point. -/
theorem reachesPoll_of_selected (a : Action) {s : State} (hphase : s.phase ≠ .reserved) :
    ∃ k t, ReachesPoll (selected a s) k t := by
  cases a with
  | nop => exact reachesPoll_of_wait rfl hphase
  | start => exact reachesPoll_of_action (act := .start) (.inl rfl) rfl hphase
  | byte => exact reachesPoll_of_action (act := .byte) (.inr (.inl rfl)) rfl hphase
  | endAction => exact reachesPoll_of_action (act := .endAction) (.inr (.inr rfl)) rfl hphase

/-- The big step takes the action that the dispatch selects (R81, R89). -/
theorem dispatch_of_bigTick {r : Rows} {f : Level} {c : Count} {t : Nat} {x : TickResult}
    (h : bigTick r f c t = some x) : dispatch r.phase (classify r.prev f) (pendOf c r.exp) = some x.action := by
  unfold bigTick at h
  simp only at h
  split at h
  · cases h
  all_goals
    next hd =>
    cases h
    exact hd

/-- A phase whose iteration has an action is not the reserved one (R46). -/
theorem phase_ne_reserved_of_dispatch {phase : Phase} {edge : EdgeClass} {pend : Bool} {a : Action}
    (h : dispatch phase edge pend = some a) : phase ≠ .reserved := by
  rintro rfl
  cases h

/-- Settles O57: the iteration's first step is its poll, whose word is its encoding, and the steps up to the next poll point have none. -/
theorem runEncodingListsTheActingDispatchWords : Obligations.RunEncodingListsTheActingDispatchWords := by
  refine ⟨fun a b s t h => runEncoding_add b h, fun s x hturn hx => ?_⟩
  have haction := dispatch_of_bigTick hx
  have hstep := step_poll_action hturn haction
  obtain ⟨k, t, hrun, hnext, hfree⟩ :=
    reachesPoll_of_selected x.action (s := polled s) (phase_ne_reserved_of_dispatch haction)
  refine ⟨k + 1, t, Nat.succ_pos k, by rw [run_succ hstep, hrun], hnext, fun j u hpos hj hu => ?_, ?_⟩
  · obtain ⟨j, rfl⟩ := Nat.exists_eq_succ_of_ne_zero (Nat.one_le_iff_ne_zero.mp hpos)
    rw [run_succ hstep] at hu
    exact hfree j u (Nat.lt_of_succ_lt_succ hj) hu
  · rw [runEncoding_succ hstep, hfree.runEncoding_eq_nil, List.append_nil]
    exact stepEncoding_of_poll hturn haction

end Sys2Proof.Machine

/-! PROOFS. The edge detector: its instructions, the one writer of `prev`, and the rising edge that waits for the backlog. -/

namespace Sys2Proof.Machine

/-! ### The edge instructions and LATCHPREV -/

/-- Settles O17: each meaning is the `report` of its class, which writes the condition value alone. -/
theorem edgeInstructionsReportTheirClass : Obligations.EdgeInstructionsReportTheirClass :=
  fun _ => ⟨rfl, rfl, rfl, rfl⟩

/-- The micro-operation that writes `prev` is LATCHPREV (R65). -/
theorem microRows_prev {i : Instr} {r : Rows} (h : (microRows i r).prev ≠ r.prev) :
    i = .latchprev ∧ (microRows i r).prev = r.cur := by
  cases i with
  | latchprev => exact ⟨rfl, rfl⟩
  | _ => exact absurd rfl h

/-- A step that writes `prev` is LATCHPREV's, and the value is the sample (R24, R65). -/
theorem latchprev_of_prev_ne {s t : State} (h : step s = .next t) (hne : t.prev ≠ s.prev) :
    nextTurn s = .micro .latchprev ∧ t.prev = s.cur := by
  rcases micro_or_rows_kept h with ⟨i, turn, rows⟩ | ⟨prev, -⟩
  · have hprev : t.prev = (microRows i s.rows).prev := congrArg Rows.prev rows
    rw [hprev] at hne ⊢
    obtain ⟨rfl, hval⟩ := microRows_prev hne
    exact ⟨turn, hval⟩
  · exact absurd prev hne

/-- LATCHPREV stands last but one in START and in END (R102, R106). -/
theorem latchprev_occursOnlyAt : OccursOnlyAt 0xC0 [(.start, 9), (.endAction, 69)] :=
  occursOnlyAt_of_check (by decide) (by decide)

/-- Settles O18: the word and its places are read off the micro-programs, and of all steps a micro-operation's alone can write `prev`. -/
theorem latchprevCopiesTheSample : Obligations.LatchprevCopiesTheSample :=
  ⟨rfl, latchprev_occursOnlyAt, fun _ => rfl, fun _ _ h hne => latchprev_of_prev_ne h hne⟩

/-! ### The backlog (R75) -/

theorem backlog_toNat_eq_zero_iff {c e : Count} : (backlog c e).toNat = 0 ↔ c = e := by
  unfold backlog
  bv_omega

/-- One burst more is one owed pulse less. -/
theorem backlog_add_one {c e : Count} {n : Nat} (h : (backlog c e).toNat = n + 1) : (backlog c (e + 1)).toNat = n := by
  unfold backlog at h ⊢
  bv_omega

/-! ### Big ticks in Active -/

/-- The words that an action runs: those of its micro-program, and none for NOP. -/
def actionWords : Action → List MicroWord
  | .nop => []
  | .start => startWords
  | .byte => byteWords
  | .endAction => endWords

/-- A tick takes the action that the dispatch selects, and makes of the sampled rows what the action's words make of them (R89). -/
theorem bigTick_of_dispatch {r : Rows} {f : Level} {c : Count} {a : Action}
    (h : dispatch r.phase (classify r.prev f) (pendOf c r.exp) = some a) (t : Nat) :
    ∃ x, bigTick r f c t = some x ∧ x.action = a ∧ x.rows = runRows (actionWords a) { r with cur := f } := by
  have hout := runRows_out (actionWords a) { r with cur := f }
  unfold bigTick
  simp only [h]
  cases a with
  | nop => exact ⟨_, rfl, rfl, rfl⟩
  | start => exact ⟨_, rfl, rfl, by simp only [actionWords, startWords_rows] at hout ⊢; rw [← hout]⟩
  | byte => exact ⟨_, rfl, rfl, by simp only [actionWords, byteWords_rows] at hout ⊢; rw [← hout]⟩
  | endAction => exact ⟨_, rfl, rfl, by simp only [actionWords, endWords_rows] at hout ⊢; rw [← hout]⟩

/-- In Active a pending pulse selects BYTE, whatever the edge (R83). -/
theorem dispatch_active_pending {c e : Count} (h : c ≠ e) (edge : EdgeClass) :
    dispatch .active edge (pendOf c e) = some .byte := by
  have hpend : pendOf c e = true := bne_iff_ne.mpr h
  rw [hpend]
  rfl

/-- In Active with nothing pending a rising edge selects END (R84). -/
theorem dispatch_active_rising (c : Count) : dispatch .active .rising (pendOf c c) = some .endAction := by
  have hpend : pendOf c c = false := bne_self_eq_false c
  rw [hpend]
  rfl

theorem bigRun_cons {r last : Rows} {f : Level} {c : Count} {ins : List (Level × Count)} {x : TickResult}
    {a : Action} {acts : List Action} (hx : bigTick r f c 0 = some x) (hact : x.action = a)
    (hrun : bigRun x.rows ins = some (acts, last)) : bigRun r ((f, c) :: ins) = some (a :: acts, last) := by
  simp only [bigRun, hx, hact, hrun]

/-- While the framing line is held HIGH and the counter stays, row Active serves the `n` owed pulses one by one and then ends (R136). -/
theorem bigRun_of_backlog {r : Rows} {c : Count} {n : Nat} (hactive : ActiveRow r) (hn : (backlog c r.exp).toNat = n) :
    ∃ last, bigRun r (List.replicate (n + 1) (.high, c)) = some (List.replicate n .byte ++ [.endAction], last) ∧
      IdleRow last ∧ last.cur = .high := by
  induction n generalizing r with
  | zero =>
    obtain rfl := backlog_toNat_eq_zero_iff.mp hn
    have ⟨hphase, hprev, _⟩ := hactive
    have hsel : dispatch r.phase (classify r.prev .high) (pendOf r.exp r.exp) = some .endAction := by
      rw [hphase, hprev]
      exact dispatch_active_rising r.exp
    obtain ⟨x, hx, hact, hrows⟩ := bigTick_of_dispatch hsel 0
    refine ⟨x.rows, bigRun_cons hx hact rfl, hrows ▸ idleRow_after_end hactive, ?_⟩
    rw [hrows]
    show (runRows endWords _).cur = .high
    rw [endWords_rows]
  | succ n ih =>
    have ⟨hphase, _⟩ := hactive
    have hpend : c ≠ r.exp := fun h => by
      rw [backlog_toNat_eq_zero_iff.mpr h] at hn
      cases hn
    have hsel : dispatch r.phase (classify r.prev .high) (pendOf c r.exp) = some .byte := by
      rw [hphase]
      exact dispatch_active_pending hpend _
    obtain ⟨x, hx, hact, hrows⟩ := bigTick_of_dispatch hsel 0
    have hactive' : ActiveRow x.rows := hrows ▸ activeRow_after_byte hactive .high
    have hexp : x.rows.exp = r.exp + 1 := by
      rw [hrows]
      show (runRows byteWords _).exp = _
      rw [byteWords_rows]
    obtain ⟨last, hrun, hlast⟩ := ih hactive' (hexp ▸ backlog_add_one hn)
    exact ⟨last, bigRun_cons hx hact hrun, hlast⟩

/-- Settles O49: by induction on the backlog, each burst taking one owed pulse and keeping row Active. -/
theorem risingEdgeWaitsForTheBacklog : Obligations.RisingEdgeWaitsForTheBacklog :=
  fun _ _ hactive => bigRun_of_backlog hactive rfl

end Sys2Proof.Machine

/-! PROOFS. The pulse counter and the shadow count: a stimulus on `PREQ`, and the three micro-operations RSTEXP, RSTCNT and INCEXP. -/

namespace Sys2Proof.Machine

/-! ### Counting -/

/-- A count is silent at its wrap (R68, R73). -/
theorem Count.toNat_add_one (c : Count) : (c + 1).toNat = (c.toNat + 1) % 256 := BitVec.toNat_add c 1

/-- A stimulus on `PREQ` drives the line, takes the counter's input stage along and counts a fall (R39, R68). -/
theorem environmentStep_preq {s : State} {e : Stimulus} (hline : e.line = .preq) (rest : List Stimulus) :
    environmentStep s e rest =
      { s with
        env := rest
        pcnt := if s.preqLast = .high ∧ e.level = .low then s.pcnt + 1 else s.pcnt
        preqLast := e.level
        preq := e.level } := by
  rw [environmentStep, hline, driveLine_preq]
  rfl

/-- Settles O19: the step is the stimulus's, and its count is the 8-bit sum. -/
theorem fallingEdgeOfPreqIsCounted : Obligations.FallingEdgeOfPreqIsCounted := by
  intro s e rest hdue hphase hline
  refine ⟨_, step_due hdue hphase, ?_, ?_⟩
  · rw [environmentStep_preq hline, apply_ite BitVec.toNat, Count.toNat_add_one]
  · rw [environmentStep_preq hline]

/-! ### RSTEXP, RSTCNT and INCEXP -/

/-- RSTEXP stands once, in the tail of END (R74, R106). -/
theorem rstexp_occursOnlyAt : OccursOnlyAt 0x60 [(.endAction, 67)] := occursOnlyAt_of_check (by decide) (by decide)

/-- RSTCNT stands once, in the tail of END (R71, R106). -/
theorem rstcnt_occursOnlyAt : OccursOnlyAt 0x80 [(.endAction, 68)] := occursOnlyAt_of_check (by decide) (by decide)

/-- INCEXP stands once, last in BYTE (R73, R104). -/
theorem incexp_occursOnlyAt : OccursOnlyAt 0xA0 [(.byte, 48)] := occursOnlyAt_of_check (by decide) (by decide)

/-- A place that a word is said to have holds the word. -/
theorem OccursOnlyAt.word_at {u : MicroWord} {places : List (Program × Nat)} {act : Program} {k : Nat}
    (h : OccursOnlyAt u places) (hact : act = .start ∨ act = .byte ∨ act = .endAction) (hk : (act, k) ∈ places) :
    (programWords act)[k]? = some u := (h act hact k).mpr hk

/-- A step that is not RSTCNT's leaves the counter or counts one fall (R70, R71). -/
theorem pcnt_kept_or_add_one {s t : State} (h : step s = .next t) (hturn : nextTurn s ≠ .micro .rstcnt) :
    t.pcnt = s.pcnt ∨ t.pcnt = s.pcnt + 1 := by
  by_cases hkept : t.pcnt = s.pcnt
  · exact .inl hkept
  · rcases pcntIsWrittenOnlyByCountAndRstcnt s t h hkept with ⟨hreset, -⟩ | ⟨e, rest, -, -, -, -, hcount⟩
    · exact absurd hreset hturn
    · exact .inr hcount

/-- Settles O21: the word and its place are read off END, where RSTCNT follows; the meaning is one update of `exp`. -/
theorem rstexpZeroesTheShadowCount : Obligations.RstexpZeroesTheShadowCount :=
  ⟨rfl, rstexp_occursOnlyAt, rstcnt_occursOnlyAt.word_at (by simp) (by simp), fun _ => rfl⟩

/-- Settles O22: the word and its place are read off END, where RSTEXP comes before; of all other steps only a counted fall writes
`pcnt`. -/
theorem rstcntZeroesTheCounter : Obligations.RstcntZeroesTheCounter :=
  ⟨rfl, rstcnt_occursOnlyAt, rstexp_occursOnlyAt.word_at (by simp) (by simp), fun _ => rfl,
    fun _ _ h hturn => pcnt_kept_or_add_one h hturn⟩

/-- Settles O23: the word and its place are read off BYTE; the meaning is one update of `exp`, by the 8-bit sum. -/
theorem incexpAddsOneModulo256 : Obligations.IncexpAddsOneModulo256 :=
  ⟨rfl, incexp_occursOnlyAt, fun s => ⟨_, rfl, Count.toNat_add_one s.exp, rfl⟩⟩

end Sys2Proof.Machine

/-! PROOFS. The session: the loop that never stops, the way from any position to the next poll point, the three actions from their entry to
their end, and the small steps that make up the big tick. -/

namespace Sys2Proof.Machine

/-! ### The loop never stops (R91, R113) -/

theorem runRows_phase {ws : List MicroWord} {r : Rows} (hr : r.phase ≠ .reserved) : (runRows ws r).phase ≠ .reserved := by
  induction ws generalizing r with
  | nil => exact hr
  | cons u us ih =>
    simp only [runRows]
    cases hu : decodeMicro u with
    | ok i => exact ih (microRows_phase hu hr)
    | error e => exact hr

theorem IdleRow.phase_ne_reserved {r : Rows} (h : IdleRow r) : r.phase ≠ .reserved := by
  obtain ⟨hphase, -⟩ := h
  simp [hphase]

theorem ActiveRow.phase_ne_reserved {r : Rows} (h : ActiveRow r) : r.phase ≠ .reserved := by
  obtain ⟨hphase, -⟩ := h
  simp [hphase]

theorem EntryRow.phase_ne_reserved {act : Program} {r : Rows} (h : EntryRow act r) : r.phase ≠ .reserved := by
  cases act with
  | start => exact h.1.phase_ne_reserved
  | byte => exact ActiveRow.phase_ne_reserved h
  | endAction => exact h.1.phase_ne_reserved
  | single u => exact h.elim

/-- No run reaches the reserved phase (R46). -/
theorem SessionInv.phase_ne_reserved {s : State} (hs : SessionInv s) : s.phase ≠ .reserved := by
  show s.rows.phase ≠ .reserved
  cases hseq : s.seq with
  | poll => exact ((sessionInv_poll hseq).mp hs).elim IdleRow.phase_ne_reserved ActiveRow.phase_ne_reserved
  | run act upc =>
    obtain ⟨-, -, entry, hentry, hrows⟩ := (sessionInv_run hseq).mp hs
    rw [hrows]
    exact runRows_phase hentry.phase_ne_reserved

/-- In Idle and in Active every iteration has an action (R81). -/
theorem dispatch_isSome {phase : Phase} (h : phase = .idle ∨ phase = .active) (edge : EdgeClass) (pend : Bool) :
    ∃ a, dispatch phase edge pend = some a := by
  rw [← Option.isSome_iff_exists]
  rcases h with rfl | rfl <;> cases edge <;> cases pend <;> rfl

/-- The poll point of a row of R22 has an action. -/
theorem step_poll_of_row {s : State} (hturn : nextTurn s = .poll) (hrow : IdleRow s.rows ∨ ActiveRow s.rows) :
    ∃ t, step s = .next t := by
  have hphase : s.phase = .idle ∨ s.phase = .active := hrow.imp And.left And.left
  obtain ⟨a, ha⟩ := dispatch_isSome hphase (classify s.prev s.framing) (pendOf s.pcnt s.exp)
  exact ⟨_, step_poll_action hturn ha⟩

/-- Inside a micro-program of the block and at its end there is always a step (R90, step kinds 2 and 4). -/
theorem step_of_position {s : State} {act : Program} {upc : Nat} (hact : act = .start ∨ act = .byte ∨ act = .endAction)
    (hseq : s.seq = .run act upc) (hupc : upc ≤ (programWords act).length) (hdue : dueStimulus s = none)
    (hdly : s.dly = 0) (hphase : s.phase ≠ .reserved) : ∃ t, step s = .next t := by
  rcases hupc.lt_or_eq with hlt | rfl
  · obtain ⟨i, hi⟩ := programWords_decode hact _ (List.getElem_mem hlt)
    obtain ⟨t, ht, -⟩ := exec_micro (decodeMicro_isMicro hi) (advanced s)
    have hturn := nextTurn_micro hdue hdly hphase hseq (List.getElem?_eq_getElem hlt) hi
    exact ⟨t, (step_micro hturn).trans ht⟩
  · exact ⟨_, step_iterationEnd (nextTurn_iterationEnd hdue hdly hphase hseq)⟩

/-- Where the session invariant holds there is a step, whatever the environment does. -/
theorem SessionInv.step_next {s : State} (hs : SessionInv s) : ∃ t, step s = .next t := by
  have hphase := hs.phase_ne_reserved
  cases hdue : dueStimulus s with
  | some x => exact ⟨_, step_due hdue hphase⟩
  | none =>
    by_cases hdly : s.dly = 0
    · cases hseq : s.seq with
      | poll => exact step_poll_of_row (nextTurn_poll hdue hdly hseq) ((sessionInv_poll hseq).mp hs)
      | run act upc =>
        obtain ⟨hupc, -, entry, hentry, -⟩ := (sessionInv_run hseq).mp hs
        exact step_of_position hentry.program hseq hupc hdue hdly hphase
    · exact ⟨_, step_wait (nextTurn_wait hdue hdly hphase)⟩

/-- Settles O14: where the invariant holds there is a step, and it keeps the invariant. -/
theorem theLoopNeverStops : Obligations.TheLoopNeverStops := by
  intro s hs k
  refine run_invariant (fun u hu => ?_) k s hs
  obtain ⟨t, ht⟩ := hu.step_next
  exact ⟨t, ht, stepKeepsTheSessionInvariant u t hu ht⟩

/-! ### The step at a poll point, in a micro-program and at its end -/

theorem classify_eq_falling_iff {prev cur : Level} : classify prev cur = .falling ↔ prev = .high ∧ cur = .low :=
  ⟨classify_eq_falling, fun ⟨hprev, hcur⟩ => by rw [hprev, hcur]; rfl⟩

theorem classify_eq_rising_iff {prev cur : Level} : classify prev cur = .rising ↔ prev = .low ∧ cur = .high :=
  ⟨classify_eq_rising, fun ⟨hprev, hcur⟩ => by rw [hprev, hcur]; rfl⟩

/-- Settles O5: the word's action is that of `Dispatch`, whose edge classes are these two pairs of levels. -/
theorem dispatchSelectsByPhaseEdgeAndPending : Obligations.DispatchSelectsByPhaseEdgeAndPending := by
  intro phase prev cur pend
  rw [selectedAction_dispatchWordOf]
  cases phase with
  | idle => simp only [dispatch, classify_eq_falling_iff]
  | active => simp only [dispatch, classify_eq_rising_iff]
  | draining => rfl
  | reserved => rfl

/-- Settles O34: the poll step classifies the sampled levels and runs the dispatch word's instruction after that. -/
theorem stepAtThePollPointRunsTheDispatchWord : Obligations.StepAtThePollPointRunsTheDispatchWord := by
  intro s hdue hdly hseq
  refine ⟨?_, ?_, sampled_eq s⟩
  · have hclass := edgeInstr_effect (sampled s)
    rw [edgeInstr, edgeWord_sampled] at hclass
    rw [hclass, sampled_eq]
    rfl
  · rw [step_poll (nextTurn_poll hdue hdly hseq), pollStep_eq, sampled_eq]
    rfl

/-- Settles O35: the turn is the micro-operation's, which answers in every state and leaves the position. -/
theorem stepRunsTheFetchedMicroOperation : Obligations.StepRunsTheFetchedMicroOperation := by
  intro s act upc u i hdue hdly hphase hseq hu hi
  have hstep : step s = exec i (advanced s) := step_micro (nextTurn_micro hdue hdly hphase hseq hu hi)
  obtain ⟨t, ht, effect⟩ := exec_micro (decodeMicro_isMicro hi) (advanced s)
  refine ⟨by rw [hstep, advanced_run hseq], t, hstep.trans ht, ?_⟩
  rw [effect.rest, advanced_run hseq]

/-- Settles O37: the turn is the iteration's end, which writes the position, the wait and the model's own fields alone. -/
theorem stepAtTheEndOfAProgramReturnsToThePollPoint : Obligations.StepAtTheEndOfAProgramReturnsToThePollPoint := by
  intro s act hdue hdly hphase hseq
  refine ⟨_, step_iterationEnd (nextTurn_iterationEnd hdue hdly hphase hseq), ?_⟩
  rw [endIteration_eq]
  exact ⟨rfl, rfl, rfl, rfl, rfl, rfl, rfl, rfl, rfl⟩

/-- Settles O48: in Active a pending pulse selects BYTE whatever the edge, and entering BYTE writes no row. -/
theorem pendingPulseIsServedBeforeTheRisingEdge : Obligations.PendingPulseIsServedBeforeTheRisingEdge := by
  intro s hdue hdly hseq hphase hpend
  have hsel : dispatch s.phase (classify s.prev s.framing) (pendOf s.pcnt s.exp) = some .byte := by
    rw [hphase]
    exact dispatch_active_pending hpend _
  exact ⟨_, step_poll_action (nextTurn_poll hdue hdly hseq) hsel, rfl, rfl, rfl, rfl, hphase, rfl⟩

/-- Settles O32: the four NOP instructions mean the same selection of nothing. -/
theorem nopOnlySpendsTheIterationOverhead : Obligations.NopOnlySpendsTheIterationOverhead := by
  intro i hi s
  have hexec : exec i s = .next (selectNothing s) := by
    cases i with
    | nopIdleLow cur pend => rfl
    | nopIdleHigh pend => rfl
    | nopActiveLow => rfl
    | nopActiveHigh cur => rfl
    | _ => cases hi
  exact ⟨_, hexec, rfl, Nat.le_max_left _ _, rfl, rfl, selectNothing_eq s⟩

/-! ### The time and the trace of a list of words -/

section Words

variable {ws : List MicroWord} (hws : ∀ u ∈ ws, ∃ i, decodeMicro u = .ok i)

include hws

theorem runTime_append (rest : List MicroWord) : runTime (ws ++ rest) = runTime ws + runTime rest := by
  induction ws with
  | nil => exact (Nat.zero_add _).symm
  | cons u us ih =>
    obtain ⟨i, hi⟩ := hws u List.mem_cons_self
    simp only [List.cons_append, runTime, hi, ih fun v hv => hws v (List.mem_cons_of_mem u hv), Nat.add_assoc]

theorem runEvents_append (rest : List MicroWord) (n : Nat) (r : Rows) :
    runEvents (ws ++ rest) n r = runEvents ws n r ++ runEvents rest (n + runTime ws) (runRows ws r) := by
  induction ws generalizing n r with
  | nil => rfl
  | cons u us ih =>
    obtain ⟨i, hi⟩ := hws u List.mem_cons_self
    simp only [List.cons_append, runEvents, runTime, runRows, hi, ih fun v hv => hws v (List.mem_cons_of_mem u hv),
      List.append_assoc, Nat.add_assoc]

theorem runTime_drop_le (k : Nat) : runTime (ws.drop k) ≤ runTime ws := by
  have hsplit := runTime_append (fun u hu => hws u (List.mem_of_mem_take hu)) (ws.drop k) (ws := ws.take k)
  rw [List.take_append_drop] at hsplit
  omega

/-- Words run over and over emit the events of each round, at the round's own time and from its own rows (R56). -/
theorem runEvents_repeatWords (k n : Nat) (r : Rows) :
    runEvents (repeatWords ws k) n r =
      (List.range k).flatMap fun j => runEvents ws (n + runTime ws * j) (runRows (repeatWords ws j) r) := by
  induction k generalizing n r with
  | zero => rfl
  | succ k ih =>
    have hround : ∀ j, runRows (repeatWords ws j) (runRows ws r) = runRows (repeatWords ws (j + 1)) r := fun j =>
      (runRows_append hws _ r).symm
    have htime : ∀ j, n + runTime ws + runTime ws * j = n + runTime ws * (j + 1) := fun j => by ring
    rw [List.range_succ_eq_map, List.flatMap_cons, List.flatMap_map]
    simp only [repeatWords, runEvents_append hws, ih, hround, htime]
    rfl

end Words

/-! ### What the three micro-programs emit -/

theorem cycleWords_decode : ∀ u ∈ cycleWords, ∃ i, decodeMicro u = .ok i := fun u hu =>
  programWords_decode (.inl rfl) u (List.mem_append_left _ (List.mem_append_left _ hu))

theorem slotWords_decode : ∀ u ∈ slotWords, ∃ i, decodeMicro u = .ok i := fun u hu =>
  programWords_decode (.inr (.inl rfl)) u (List.mem_append_left _ (List.mem_append_left _ hu))

/-- A clock cycle leaves the rows as it found them (R56). -/
theorem cycleWords_rows (r : Rows) : runRows cycleWords r = r := by
  obtain ⟨p, c, e, ph, ⟨a, b, s, f⟩⟩ := r
  cases a <;> rfl

theorem cycleWords_events (n : Nat) (r : Rows) :
    runEvents cycleWords n r = [⟨n, [(.sioClk, r.out.sioClk.not)]⟩, ⟨n + 50, [(.sioClk, r.out.sioClk)]⟩] := by
  obtain ⟨p, c, e, ph, ⟨a, b, s, f⟩⟩ := r
  cases a <;> rfl

/-- A bit slot leaves the clocks as it found them and `SYNC` LOW (R56). -/
theorem slotWords_rows (r : Rows) : runRows slotWords r = { r with out := { r.out with sync := .low } } := by
  obtain ⟨p, c, e, ph, ⟨a, b, s, f⟩⟩ := r
  cases a <;> cases b <;> rfl

theorem slotWords_events (n : Nat) (r : Rows) :
    runEvents slotWords n r =
      [⟨n, [(.sioClk, r.out.sioClk.not), (.spiClk, r.out.spiClk.not)]⟩] ++
        (if r.out.sync = .high then [⟨n + 25, [(.sync, .low)]⟩] else []) ++
        [⟨n + 50, [(.sioClk, r.out.sioClk), (.spiClk, r.out.spiClk)]⟩] := by
  obtain ⟨p, c, e, ph, ⟨a, b, s, f⟩⟩ := r
  cases a <;> cases b <;> cases s <;> rfl

theorem repeatWords_cycle_rows (k : Nat) (r : Rows) : runRows (repeatWords cycleWords k) r = r := by
  induction k with
  | zero => rfl
  | succ k ih => rw [repeatWords, runRows_append cycleWords_decode, cycleWords_rows, ih]

/-- After the first slot `SYNC` is LOW and stays it. -/
theorem repeatWords_slot_rows (k : Nat) (r : Rows) :
    runRows (repeatWords slotWords k) r = { r with out := { r.out with sync := if k = 0 then r.out.sync else .low } } := by
  induction k generalizing r with
  | zero => rfl
  | succ k ih =>
    rw [repeatWords, runRows_append slotWords_decode, slotWords_rows, ih]
    simp

/-- The clock cycles of START and END (R102, R106). -/
theorem repeatWords_cycle_events (k n : Nat) (r : Rows) :
    runEvents (repeatWords cycleWords k) n r =
      (List.range k).flatMap fun cycle =>
        [⟨n + 100 * cycle, [(.sioClk, r.out.sioClk.not)]⟩, ⟨n + 100 * cycle + 50, [(.sioClk, r.out.sioClk)]⟩] := by
  have htime : runTime cycleWords = 100 := rfl
  simp only [runEvents_repeatWords cycleWords_decode, repeatWords_cycle_rows, cycleWords_events, htime]

/-- Session-Start: two priming cycles, then `FLOW` (R102). -/
theorem startWords_events (n : Nat) (r : Rows) :
    runEvents startWords n r =
      [⟨n, [(.sioClk, r.out.sioClk.not)]⟩, ⟨n + 50, [(.sioClk, r.out.sioClk)]⟩,
        ⟨n + 100, [(.sioClk, r.out.sioClk.not)]⟩, ⟨n + 150, [(.sioClk, r.out.sioClk)]⟩,
        ⟨n + 200, [(.flow, r.out.flow.not)]⟩] := by
  obtain ⟨p, c, e, ph, ⟨a, b, s, f⟩⟩ := r
  cases a <;> cases f <;> rfl

/-- Byte-Clock: eight slots, of which only the first can move `SYNC` (R104, R105). -/
theorem byteWords_events (n : Nat) (r : Rows) :
    runEvents byteWords n r = (List.range 8).flatMap fun slot =>
      [⟨n + 100 * slot, [(.sioClk, r.out.sioClk.not), (.spiClk, r.out.spiClk.not)]⟩] ++
        (if slot = 0 ∧ r.out.sync = .high then [⟨n + 25, [(.sync, .low)]⟩] else []) ++
        [⟨n + 100 * slot + 50, [(.sioClk, r.out.sioClk), (.spiClk, r.out.spiClk)]⟩] := by
  have hslots : ∀ u ∈ repeatWords slotWords 8, ∃ i, decodeMicro u = .ok i := fun u hu =>
    programWords_decode (.inr (.inl rfl)) u (List.mem_append_left _ hu)
  have htime : runTime slotWords = 100 := rfl
  have hsync : ∀ slot : Nat, (if slot = 0 then r.out.sync else .low) = Level.high ↔ slot = 0 ∧ r.out.sync = .high := by
    intro slot
    cases slot <;> simp
  have hfirst : ∀ slot : Nat,
      (if slot = 0 ∧ r.out.sync = .high then [TraceEvent.mk (n + 100 * slot + 25) [(.sync, .low)]] else []) =
        if slot = 0 ∧ r.out.sync = .high then [⟨n + 25, [(.sync, .low)]⟩] else [] := by
    intro slot
    cases slot <;> simp
  have hlast : ∀ (m : Nat) (q : Rows), runEvents [0xA0] m q = [] := fun _ _ => rfl
  have hwords : byteWords = repeatWords slotWords 8 ++ [0xA0] := rfl
  simp only [hwords, runEvents_append hslots, hlast, List.append_nil, runEvents_repeatWords slotWords_decode,
    repeatWords_slot_rows, slotWords_events, htime, hsync, hfirst]

/-- What END runs after its flush cycles (R106). -/
def endTail : List MicroWord := [0x34, 0x38, 0x60, 0x80, 0xC0, 0xE0]

theorem endWords_eq : endWords = 0xE2 :: (repeatWords cycleWords 16 ++ endTail) := rfl

theorem endTail_events (n : Nat) (r : Rows) :
    runEvents endTail n r =
      (if r.out.sync = .low then [⟨n, [(.sync, .high)]⟩] else []) ++
        (if r.out.flow = .low then [⟨n, [(.flow, .high)]⟩] else []) := by
  obtain ⟨p, c, e, ph, ⟨a, b, s, f⟩⟩ := r
  cases s <;> cases f <;> rfl

/-- Session-End: sixteen flush cycles, then `SYNC` and `FLOW` where they are LOW (R106). -/
theorem endWords_events (n : Nat) (r : Rows) :
    runEvents endWords n r =
      ((List.range 16).flatMap fun cycle =>
        [⟨n + 100 * cycle, [(.sioClk, r.out.sioClk.not)]⟩, ⟨n + 100 * cycle + 50, [(.sioClk, r.out.sioClk)]⟩]) ++
      (if r.out.sync = .low then [⟨n + 1600, [(.sync, .high)]⟩] else []) ++
      (if r.out.flow = .low then [⟨n + 1600, [(.flow, .high)]⟩] else []) := by
  have hcycles : ∀ u ∈ repeatWords cycleWords 16, ∃ i, decodeMicro u = .ok i := fun u hu =>
    programWords_decode (.inr (.inr rfl)) u (List.mem_append_left _ (List.mem_append_right _ hu))
  have htime : runTime (repeatWords cycleWords 16) = 1600 := rfl
  have hphase : ∀ (ws : List MicroWord), runEvents (0xE2 :: ws) n r = runEvents ws n { r with phase := .draining } :=
    fun _ => rfl
  simp only [endWords_eq, hphase, runEvents_append hcycles, repeatWords_cycle_rows, repeatWords_cycle_events, htime,
    endTail_events, List.append_assoc]

/-! ### An action from any of its positions to its end (R88, R99) -/

/-- The words `ws`, which the micro-program `act` still has to run, are run to its end, whatever the environment does: in time, rows and
trace it is what the words make of the rows at the start, after the wait that was running. -/
structure Finishes (act : Program) (ws : List MicroWord) (s : State) (k : Nat) (t : State) : Prop where
  run : Sys2Proof.core.run k s = .next t
  seq : t.seq = .run act (programWords act).length
  dly : t.dly = 0
  due : dueStimulus t = none
  phase : t.phase ≠ .reserved
  now : t.now = s.now + s.dly + runTime ws
  rows : t.rows = runRows ws s.rows
  trace : t.trace = s.trace ++ runEvents ws (s.now + s.dly) s.rows
  bound : k ≤ ws.length + (s.dly + runTime ws) + s.env.length
  quiet : s.env = [] → t.env = [] ∧ t.pcnt = if 0x80#8 ∈ ws then 0 else s.pcnt
  overhead : iterationOverhead t = iterationOverhead s
  pollFree : PollFree s k

theorem iterationOverhead_congr {s t : State} (hoverheads : t.overheads = s.overheads) (hiter : t.iter = s.iter) :
    iterationOverhead t = iterationOverhead s := by
  unfold iterationOverhead
  rw [hoverheads, hiter]

/-- The trace is the log in the order of time (log 12). -/
theorem State.trace_append {s t : State} {events : List TraceEvent} (h : t.log = events.reverse ++ s.log) :
    t.trace = s.trace ++ events := by
  rw [State.trace, h, List.reverse_append, List.reverse_reverse, State.trace]

/-- From any position of a micro-program, with any wait running, its words that are left are run. -/
theorem exists_finishes {s : State} {act : Program} {upc : Nat} (hact : act = .start ∨ act = .byte ∨ act = .endAction)
    (hseq : s.seq = .run act upc) (hupc : upc ≤ (programWords act).length) (hphase : s.phase ≠ .reserved) :
    ∃ k t, Finishes act ((programWords act).drop upc) s k t := by
  obtain ⟨a, u, h⟩ := settles s hphase
  have hphase' : u.phase ≠ .reserved := by
    have hkept : u.phase = s.phase := congrArg Rows.phase h.held.rows
    rwa [hkept]
  obtain ⟨b, t, hrun, htseq, htdly, htdue, htphase, hnow, hrows, hlog, hbound, hquiet, hoverheads, hiter, hfree⟩ :=
    runs_to_end act _ u upc rfl (fun v hv => programWords_decode hact v (List.mem_of_mem_drop hv))
      (h.held.seq.trans hseq) h.dly h.due hphase'
  have hend : upc + ((programWords act).drop upc).length = (programWords act).length := by
    rw [List.length_drop, Nat.add_sub_cancel' hupc]
  rw [h.held.rows] at hrows hlog
  rw [h.now] at hnow hlog
  refine ⟨a + b, t, ?_, hend ▸ htseq, htdly, htdue, htphase, hnow, hrows, ?_, ?_, fun henv => ?_, ?_,
    PollFree.add h.noPoll h.run hfree⟩
  · rw [run_add b h.run, hrun]
  · exact State.trace_append (by rw [hlog, h.held.log])
  · have hwait := h.bound
    omega
  · obtain ⟨henv', hpcnt, -⟩ := h.held.quiet henv
    rw [← hpcnt]
    exact hquiet henv'
  · exact iterationOverhead_congr (hoverheads.trans h.held.overheads) (hiter.trans h.held.iter)

/-- Settles O45: an action begun is one with all its words left and no wait running. -/
theorem actionRunsToItsEndWhateverTheEnvironmentDoes : Obligations.ActionRunsToItsEndWhateverTheEnvironmentDoes := by
  intro act s hact hseq hdly hphase
  obtain ⟨k, t, h⟩ := exists_finishes hact hseq (Nat.zero_le _) hphase
  rw [List.drop_zero] at h
  have hbound := h.bound
  have hnow := h.now
  have htrace := h.trace
  rw [hdly] at hbound hnow htrace
  exact ⟨k, t, by omega, h.run, h.seq, h.dly, hnow, h.rows, htrace⟩

/-! ### START, BYTE and END from their entry to their end -/

/-- RSTCNT is a word of END alone (R71). -/
theorem rstcnt_mem_programWords {act : Program} (hact : act = .start ∨ act = .byte ∨ act = .endAction) :
    0x80#8 ∈ programWords act ↔ act = .endAction := by
  rw [List.mem_iff_getElem?]
  have hplace : ∀ k, (programWords act)[k]? = some 0x80#8 ↔ (act, k) ∈ [(Program.endAction, 68)] :=
    rstcnt_occursOnlyAt act hact
  simp [hplace]

theorem State.rows_eq_iff {s : State} {r : Rows} :
    s.rows = r ↔ s.prev = r.prev ∧ s.cur = r.cur ∧ s.exp = r.exp ∧ s.phase = r.phase ∧ s.out = r.out := by
  cases r
  simp [State.rows]

/-- An action entered at a poll point runs to its end (R90, R99); the counter is 0 after END and as it was after the others, if no pulse
comes. -/
theorem enter_runs {s : State} {act : Program} (hact : act = .start ∨ act = .byte ∨ act = .endAction) (hdly : s.dly = 0)
    (hphase : s.phase ≠ .reserved) :
    ∃ (k : Nat) (u : State), Sys2Proof.core.run k (enter s act) = .next u ∧
      u.seq = .run act (programWords act).length ∧ u.dly = 0 ∧ u.now = s.now + runTime (programWords act) ∧
      u.rows = runRows (programWords act) s.rows ∧
      u.trace = s.trace ++ runEvents (programWords act) s.now s.rows ∧
      (s.env = [] → u.pcnt = if act = .endAction then 0 else s.pcnt) := by
  obtain ⟨k, u, h⟩ := exists_finishes (s := enter s act) hact rfl (Nat.zero_le _) hphase
  rw [List.drop_zero] at h
  have hwait : (enter s act).now + (enter s act).dly = s.now := congrArg (s.now + ·) hdly
  have hnow := h.now
  have htrace := h.trace
  rw [hwait] at hnow htrace
  refine ⟨k, u, h.run, h.seq, h.dly, hnow, h.rows, htrace, fun henv => ?_⟩
  have hpcnt := (h.quiet henv).2
  simp only [rstcnt_mem_programWords hact] at hpcnt
  exact hpcnt

/-- Settles O29: the words of START give the rows, the time and the trace. -/
theorem startEntersAndRunsSessionStart : Obligations.StartEntersAndRunsSessionStart := by
  refine fun _ s => ⟨rfl, fun hdly hphase => ?_⟩
  obtain ⟨k, u, hrun, hseq, hudly, hnow, hrows, htrace, hpcnt⟩ := enter_runs (act := .start) (.inl rfl) hdly hphase
  rw [programWords, startWords_rows, State.rows_eq_iff] at hrows
  obtain ⟨hprev, hcur, hexp, huphase, hout⟩ := hrows
  rw [programWords, startWords_events] at htrace
  exact ⟨k, u, hrun, hseq, hudly, hnow, hprev, hcur, hexp, huphase, hout, htrace, hpcnt⟩

/-- Settles O30: the words of BYTE give the rows, the time and the trace. -/
theorem byteEntersAndRunsByteClock : Obligations.ByteEntersAndRunsByteClock := by
  refine fun _ _ s => ⟨rfl, fun hdly hphase => ?_⟩
  obtain ⟨k, u, hrun, hseq, hudly, hnow, hrows, htrace, hpcnt⟩ := enter_runs (act := .byte) (.inr (.inl rfl)) hdly hphase
  rw [programWords, byteWords_rows, State.rows_eq_iff] at hrows
  obtain ⟨hprev, hcur, hexp, huphase, hout⟩ := hrows
  rw [programWords, byteWords_events] at htrace
  exact ⟨k, u, hrun, hseq, hudly, hnow, hprev, hcur, hexp, huphase, hout, htrace, hpcnt⟩

/-- Settles O31: the words of END give the rows, the time and the trace. -/
theorem endEntersAndRunsSessionEnd : Obligations.EndEntersAndRunsSessionEnd := by
  refine fun s => ⟨rfl, fun hdly hphase => ?_⟩
  obtain ⟨k, u, hrun, hseq, hudly, hnow, hrows, htrace, hpcnt⟩ :=
    enter_runs (act := .endAction) (.inr (.inr rfl)) hdly hphase
  rw [programWords, endWords_rows, State.rows_eq_iff] at hrows
  obtain ⟨hprev, hcur, hexp, huphase, hout⟩ := hrows
  rw [programWords, endWords_events, ← List.append_assoc, ← List.append_assoc] at htrace
  exact ⟨k, u, hrun, hseq, hudly, hnow, hprev, hcur, hexp, huphase, hout, htrace, hpcnt⟩

/-! ### From any position to the next poll point (R91) -/

/-- The block comes to its next poll point by running the words `ws` and then spending `overhead`; the wait that is running at the start
goes before. -/
structure PollsAfter (ws : List MicroWord) (overhead : Nat) (s : State) (k : Nat) (t : State) : Prop where
  reaches : ReachesPoll s k t
  now : t.now = s.now + s.dly + runTime ws + overhead
  rows : t.rows = runRows ws s.rows
  trace : t.trace = s.trace ++ runEvents ws (s.now + s.dly) s.rows
  quiet : s.env = [] → t.env = [] ∧ t.pcnt = if 0x80#8 ∈ ws then 0 else s.pcnt

/-- At the poll position the wait is all that is left (log 4). -/
theorem pollsAfter_of_poll {s : State} (hseq : s.seq = .poll) (hphase : s.phase ≠ .reserved) :
    ∃ k t, PollsAfter [] 0 s k t := by
  obtain ⟨k, t, h⟩ := settles s hphase
  refine ⟨k, t, ⟨h.run, nextTurn_poll h.due h.dly (h.held.seq.trans hseq), h.noPoll⟩, h.now, h.held.rows, ?_,
    fun henv => ?_⟩
  · exact State.trace_append (events := []) h.held.log
  · obtain ⟨henv', hpcnt, -⟩ := h.held.quiet henv
    exact ⟨henv', hpcnt⟩

/-- Inside a micro-program its words that are left are run, and then the iteration's overhead is spent. -/
theorem pollsAfter_of_run {s : State} {act : Program} {upc : Nat} (hact : act = .start ∨ act = .byte ∨ act = .endAction)
    (hseq : s.seq = .run act upc) (hupc : upc ≤ (programWords act).length) (hphase : s.phase ≠ .reserved) :
    ∃ k t, PollsAfter ((programWords act).drop upc) (iterationOverhead s) s k t := by
  obtain ⟨a, u, h⟩ := exists_finishes hact hseq hupc hphase
  obtain ⟨b, t, hrun, hturn, hrows, hlog, hnow, hquiet, hfree⟩ := returns_to_poll h.seq h.dly h.due h.phase
  refine ⟨a + b, t, .of_run h.run h.pollFree ⟨hrun, hturn, hfree⟩, ?_, hrows.trans h.rows, ?_, fun henv => ?_⟩
  · rw [hnow, h.now, h.overhead]
  · rw [← h.trace, State.trace, hlog, State.trace]
  · obtain ⟨henv', hpcnt⟩ := h.quiet henv
    obtain ⟨htenv, htpcnt⟩ := hquiet henv'
    exact ⟨htenv, htpcnt.trans hpcnt⟩

/-- A wait inside an action and the words after it take no longer than the whole action. -/
theorem WaitOfDelay.add_runTime_le {act : Program} {upc d : Nat} (hact : act = .start ∨ act = .byte ∨ act = .endAction)
    (h : WaitOfDelay act upc d) : d + runTime ((programWords act).drop upc) ≤ runTime (programWords act) := by
  have hdec := programWords_decode hact
  by_cases hd : d = 0
  · rw [hd, Nat.zero_add]
    exact runTime_drop_le hdec upc
  · obtain ⟨k, u, n, rfl, hu, hn, hle⟩ := h hd
    obtain ⟨hk, rfl⟩ := List.getElem?_eq_some_iff.mp hu
    calc d + runTime ((programWords act).drop (k + 1))
        ≤ duration n + runTime ((programWords act).drop (k + 1)) := Nat.add_le_add_right hle _
      _ = runTime ((programWords act).drop k) := by
        rw [List.drop_eq_getElem_cons hk, runTime, hn]
        rfl
      _ ≤ runTime (programWords act) := runTime_drop_le hdec k

/-- END is the longest action, `32 * W` (R91, R146). -/
theorem runTime_programWords_le {act : Program} (hact : act = .start ∨ act = .byte ∨ act = .endAction) :
    runTime (programWords act) ≤ 32 * Config.halfPulse := by
  rcases hact with rfl | rfl | rfl <;> decide

/-- Settles O15: at the poll position only the wait is left, and inside an action no more than a whole one and the overhead. -/
theorem pollPointIsReachedWithinTheLongestAction : Obligations.PollPointIsReachedWithinTheLongestAction := by
  intro s hs
  have hphase := hs.phase_ne_reserved
  cases hseq : s.seq with
  | poll =>
    obtain ⟨k, t, ⟨hrun, hturn, -⟩, hnow, -⟩ := pollsAfter_of_poll hseq hphase
    refine ⟨k, t, hrun, hturn, ?_⟩
    simp only [if_true, hnow, runTime]
    omega
  | run act upc =>
    obtain ⟨hupc, hwait, entry, hentry, -⟩ := (sessionInv_run hseq).mp hs
    obtain ⟨k, t, ⟨hrun, hturn, -⟩, hnow, -⟩ := pollsAfter_of_run hentry.program hseq hupc hphase
    have hleft := hwait.add_runTime_le hentry.program
    have hlongest := runTime_programWords_le hentry.program
    refine ⟨k, t, hrun, hturn, ?_⟩
    simp only [reduceCtorEq, if_false, hnow]
    omega

/-! ### The big tick (R87, R89) -/

/-- A tick takes the action that the dispatch selects; its rows, its events and its time are those of the action's words. -/
theorem bigTick_words {r : Rows} {f : Level} {c : Count} {t : Nat} {x : TickResult} (h : bigTick r f c t = some x) :
    x.rows = runRows (actionWords x.action) { r with cur := f } ∧
      x.events = runEvents (actionWords x.action) t { r with cur := f } ∧ x.time = runTime (actionWords x.action) := by
  obtain ⟨y, hy, haction, hrows⟩ := bigTick_of_dispatch (dispatch_of_bigTick h) t
  obtain rfl : x = y := Option.some.inj (h.symm.trans hy)
  refine ⟨hrows, ?_⟩
  unfold bigTick at h
  simp only at h
  split at h
  · cases h
  all_goals
    cases h
    exact ⟨rfl, rfl⟩

theorem rstcnt_mem_actionWords (a : Action) : 0x80#8 ∈ actionWords a ↔ a = .endAction := by
  cases a with
  | nop => simp [actionWords]
  | start => exact (rstcnt_mem_programWords (act := .start) (.inl rfl)).trans (by simp)
  | byte => exact (rstcnt_mem_programWords (act := .byte) (.inr (.inl rfl))).trans (by simp)
  | endAction => exact (rstcnt_mem_programWords (act := .endAction) (.inr (.inr rfl))).trans (by simp)

@[simp] theorem selected_trace (a : Action) (s : State) : (selected a s).trace = s.trace := by cases a <;> rfl

/-- The overhead of a NOP is a wait from its selection on (R147; log 4). -/
theorem selected_dly (a : Action) (s : State) :
    (selected a s).dly = if a = .nop then max 1 (iterationOverhead s) else s.dly := by cases a <;> rfl

/-- Whatever an iteration selects, its words are run, and after an action's words the overhead is still to be spent. -/
theorem selected_pollsAfter (a : Action) {s : State} (hphase : s.phase ≠ .reserved) :
    ∃ k t, PollsAfter (actionWords a) (if a = .nop then 0 else iterationOverhead s) (selected a s) k t := by
  cases a with
  | nop => exact pollsAfter_of_poll rfl hphase
  | start => exact pollsAfter_of_run (s := enter s .start) (.inl rfl) rfl (Nat.zero_le _) hphase
  | byte => exact pollsAfter_of_run (s := enter s .byte) (.inr (.inl rfl)) rfl (Nat.zero_le _) hphase
  | endAction => exact pollsAfter_of_run (s := enter s .endAction) (.inr (.inr rfl)) rfl (Nat.zero_le _) hphase

theorem dly_of_nextTurn_poll {s : State} (h : nextTurn s = .poll) : s.dly = 0 := by
  have hturn := turnOf s
  rw [h] at hturn
  cases hturn with
  | poll due dly seq => exact dly

/-- An action's words are begun at the instant of the poll; NOP has none. -/
theorem selected_events (a : Action) {s : State} (hdly : s.dly = 0) (r : Rows) :
    runEvents (actionWords a) (s.now + (selected a s).dly) r = runEvents (actionWords a) s.now r := by
  by_cases ha : a = .nop
  · rw [ha]
    rfl
  · rw [selected_dly, if_neg ha, hdly, Nat.add_zero]

/-- Settles O46: the tick's action is the one the poll selects, and from there its words and the overhead lead to the next poll point. -/
theorem smallStepsComposeToTheBigTick : Obligations.SmallStepsComposeToTheBigTick := by
  intro s x hturn hx
  have haction := dispatch_of_bigTick hx
  obtain ⟨hxrows, hxevents, hxtime⟩ := bigTick_words hx
  have hstep := step_poll_action hturn haction
  have hdly : s.dly = 0 := dly_of_nextTurn_poll hturn
  have hpdly : (polled s).dly = 0 := hdly
  obtain ⟨k, t, ⟨hrun, hnext, hfree⟩, hnow, hrows, htrace, hquiet⟩ :=
    selected_pollsAfter x.action (s := polled s) (phase_ne_reserved_of_dispatch haction)
  rw [selected_now, selected_dly, hpdly] at hnow
  rw [selected_rows, polled_rows] at hrows htrace
  rw [selected_now, selected_events x.action hpdly, selected_trace] at htrace
  rw [selected_env, selected_pcnt] at hquiet
  refine ⟨k + 1, t, Nat.succ_pos k, by rw [run_succ hstep, hrun], hnext, fun j u hpos hj hu => ?_,
    hrows.trans hxrows.symm, ?_, ?_, fun henv => ?_⟩
  · obtain ⟨j, rfl⟩ := Nat.exists_eq_succ_of_ne_zero (Nat.one_le_iff_ne_zero.mp hpos)
    rw [run_succ hstep] at hu
    exact hfree j u (Nat.lt_of_succ_lt_succ hj) hu
  · rw [htrace, hxevents]
    rfl
  · have hover : iterationOverhead (polled s) = iterationOverhead s := rfl
    have hpnow : (polled s).now = s.now := rfl
    rw [hnow, hxtime, hover, hpnow]
    split <;> omega
  · obtain ⟨htenv, htpcnt⟩ := hquiet (passStimulus_nil henv)
    simp only [rstcnt_mem_actionWords] at htpcnt
    exact ⟨htenv, htpcnt⟩

/-- Only in Idle and in Active does the dispatch select (R81, R86). -/
theorem phase_of_dispatch {phase : Phase} {edge : EdgeClass} {pend : Bool} {a : Action}
    (h : dispatch phase edge pend = some a) : phase = .idle ∨ phase = .active := by
  cases phase with
  | idle => exact .inl rfl
  | active => exact .inr rfl
  | draining => cases h
  | reserved => cases h

/-- Settles O47: the phase before the tick is what selects its action, and the phase after it what the action's words write. -/
theorem phaseTransitionsArePollToPoll : Obligations.PhaseTransitionsArePollToPoll := by
  intro r f c t x hx
  have hsel := dispatch_of_bigTick hx
  obtain ⟨hrows, -⟩ := bigTick_words hx
  have hphase := congrArg Rows.phase hrows
  generalize x.action = a at hsel hphase ⊢
  cases a with
  | nop =>
    rcases phase_of_dispatch hsel with hidle | hactive
    · exact .inr (.inr (.inr ⟨hidle, rfl, hphase.trans hidle⟩))
    · exact .inr (.inl ⟨hactive, .inr rfl, hphase.trans hactive⟩)
  | start =>
    obtain ⟨hidle, -⟩ := dispatch_some hsel
    rw [actionWords, startWords_rows] at hphase
    exact .inl ⟨hidle, rfl, hphase⟩
  | byte =>
    have hactive : r.phase = .active := dispatch_some hsel
    rw [actionWords, byteWords_rows] at hphase
    exact .inr (.inl ⟨hactive, .inl rfl, hphase.trans hactive⟩)
  | endAction =>
    obtain ⟨hactive, -⟩ := dispatch_some hsel
    rw [actionWords, endWords_rows] at hphase
    exact .inr (.inr (.inl ⟨hactive, rfl, hphase⟩))

end Sys2Proof.Machine

/-! PROOFS. The protocol actions: TGL and SET on the output latch, the wait of DLY, the words of the micro-programs and their places, the
lines that each protocol moves, and the session from START to END. -/

namespace Sys2Proof

/-! ### Sets of lines, and the words of TGL, SET and DLY (R51, R54) -/

theorem OutLine.mem_all (l : OutLine) : l ∈ OutLine.all := by cases l <;> decide

theorem LineSet.nonEmpty_iff {lines : LineSet} : lines.nonEmpty = true ↔ ∃ l, lines.has l = true := by
  constructor
  · intro h
    simp only [LineSet.nonEmpty, Bool.or_eq_true] at h
    obtain ((h | h) | h) | h := h
    · exact ⟨.sioClk, h⟩
    · exact ⟨.spiClk, h⟩
    · exact ⟨.sync, h⟩
    · exact ⟨.flow, h⟩
  · rintro ⟨l, h⟩
    cases l <;> simp_all [LineSet.nonEmpty, LineSet.has]

/-- A non-zero mask names a line (R54). -/
theorem LineSet.nonEmpty_ofMask {m : BitVec 4} (h : m ≠ 0) : (LineSet.ofMask m).nonEmpty = true := by
  revert m; decide

/-- The word of TGL is its operation, a zero bit and the mask (R51). -/
theorem decodeMicro_tgl_mask {m : BitVec 4} (h : m ≠ 0) :
    decodeMicro (0b0000#4 ++ m) = .ok (.tgl (LineSet.ofMask m)) := by
  have hfields : 0b0000#4 ++ m = 0b000#3 ++ (0#1 ++ m) := by revert m; decide
  have hword := decodeMicro_tgl_word (LineSet.nonEmpty_ofMask h)
  rwa [LineSet.mask_ofMask, ← hfields] at hword

/-- The word of SET is its operation, the level and the mask (R51). -/
theorem decodeMicro_set_mask (v : Level) {m : BitVec 4} (h : m ≠ 0) :
    decodeMicro (0b001#3 ++ BitVec.ofBool v.bit ++ m) = .ok (.set v (LineSet.ofMask m)) := by
  have hword := decodeMicro_set_word v (LineSet.nonEmpty_ofMask h)
  rw [LineSet.mask_ofMask] at hword
  rw [BitVec.append_assoc]
  exact hword

/-- The word of DLY is its operation and the number of half-units (R51). -/
theorem decodeMicro_dly_ofNat {n : Nat} (hlow : 1 ≤ n) (hhigh : n ≤ 31) :
    decodeMicro (BitVec.ofNat 8 (0x40 + n)) = .ok (.dly n) := by
  have hfields : ∀ k, k < 32 → BitVec.ofNat 8 (0x40 + k) = 0b010#3 ++ BitVec.ofNat 5 k := by decide
  rw [hfields n (by omega)]
  exact decodeMicro_dly_word hlow hhigh

end Sys2Proof

namespace Sys2Proof.Machine

/-! ### TGL and SET on the output latch -/

/-- A condition selects no output line where it fails of each. -/
theorem filter_all_eq_nil_iff {p : OutLine → Bool} : OutLine.all.filter p = [] ↔ ∀ l, p l = false := by
  simp [List.filter_eq_nil_iff, OutLine.mem_all]

/-- A toggle changes every line of the set (R95). -/
theorem lineChanges_toggle (o : Outputs) (lines : LineSet) :
    lineChanges lines o (o.toggle lines) = (OutLine.all.filter lines.has).map fun l => (l, (o.get l).not) := by
  have hmoved : ∀ l, (lines.has l && decide (o.get l ≠ (o.toggle lines).get l)) = lines.has l := by
    intro l
    cases hl : lines.has l
    · rfl
    · simp [hl, Level.not_ne]
  unfold lineChanges
  simp only [hmoved]
  refine List.map_congr_left fun l hl => ?_
  rw [Outputs.toggle_get, if_pos (List.mem_filter.mp hl).2]

/-- A SET changes the lines of the set that have not the level yet (R96). -/
theorem lineChanges_drive (o : Outputs) (v : Level) (lines : LineSet) :
    lineChanges lines o (o.drive v lines) =
      (OutLine.all.filter fun l => lines.has l && decide (o.get l ≠ v)).map fun l => (l, v) := by
  have hmoved : ∀ l, (lines.has l && decide (o.get l ≠ (o.drive v lines).get l)) =
      (lines.has l && decide (o.get l ≠ v)) := by
    intro l
    cases hl : lines.has l
    · rfl
    · simp [hl]
  unfold lineChanges
  simp only [hmoved]
  refine List.map_congr_left fun l hl => ?_
  have hnamed : lines.has l = true := (Bool.and_eq_true_iff.mp (List.mem_filter.mp hl).2).1
  rw [Outputs.drive_get, if_pos hnamed]

theorem lineToggle_log {s : State} {lines : LineSet} (h : lines.nonEmpty = true) :
    (lineToggle s lines).log =
      { time := s.now, changes := (OutLine.all.filter lines.has).map fun l => (l, (s.out.get l).not) } :: s.log := by
  obtain ⟨l, hl⟩ := LineSet.nonEmpty_iff.mp h
  have hsome : OutLine.all.filter lines.has ≠ [] := fun hnil => by simp [filter_all_eq_nil_iff.mp hnil l] at hl
  rw [lineToggle, latchOutputs_log, lineChanges_toggle, if_neg (by simpa using hsome)]

/-- A SET of lines that have the level already emits nothing (R96). -/
theorem lineWrite_log_of_held {s : State} {v : Level} {lines : LineSet}
    (h : ∀ l, lines.has l = true → s.out.get l = v) : (lineWrite s v lines).log = s.log := by
  have hnone : (OutLine.all.filter fun l => lines.has l && decide (s.out.get l ≠ v)) = [] :=
    filter_all_eq_nil_iff.mpr fun l => by simpa using h l
  rw [lineWrite, latchOutputs_log, lineChanges_drive, hnone]
  rfl

/-- A SET that changes a line emits the lines that change (R96). -/
theorem lineWrite_log_of_changed {s : State} {v : Level} {lines : LineSet}
    (h : ∃ l, lines.has l = true ∧ s.out.get l ≠ v) :
    (lineWrite s v lines).log =
      { time := s.now
        changes := (OutLine.all.filter fun l => lines.has l && decide (s.out.get l ≠ v)).map fun l => (l, v) } ::
        s.log := by
  obtain ⟨l, hnamed, hne⟩ := h
  have hsome : (OutLine.all.filter fun l => lines.has l && decide (s.out.get l ≠ v)) ≠ [] := fun hnil => by
    simpa [hnamed, hne] using filter_all_eq_nil_iff.mp hnil l
  rw [lineWrite, latchOutputs_log, lineChanges_drive, if_neg (by simpa using hsome)]

/-- Settles O25: the latch flips the lines of the set, each of which is a change; the write touches latch and trace alone. -/
theorem toggleFlipsExactlyTheNamedLines : Obligations.ToggleFlipsExactlyTheNamedLines := by
  refine ⟨fun m hm => decodeMicro_tgl_mask hm, fun lines s hlines => ?_⟩
  exact ⟨lineToggle s lines, rfl, Outputs.toggle_get s.out lines, lineToggle_log hlines, latchOutputs_eq ..⟩

/-- Settles O26: the latch takes the level on the lines of the set; those that had another one are the changes; the write touches latch
and trace alone. -/
theorem setDrivesExactlyTheNamedLines : Obligations.SetDrivesExactlyTheNamedLines := by
  refine ⟨fun v m hm => decodeMicro_set_mask v hm, fun v lines s _ => ?_⟩
  exact ⟨lineWrite s v lines, rfl, Outputs.drive_get s.out v lines, lineWrite_log_of_held, lineWrite_log_of_changed,
    latchOutputs_eq ..⟩

/-! ### DLY -/

/-- Settles O27: the meaning is one wait of `n * 25`; a wait runs out after exactly its time, and on the way only time passes and stimuli
are taken. -/
theorem delayBlocksForExactlyItsDuration : Obligations.DelayBlocksForExactlyItsDuration := by
  refine ⟨fun n hlow hhigh => decodeMicro_dly_ofNat hlow hhigh, fun n s _ _ => ⟨rfl, fun hphase => ?_⟩⟩
  obtain ⟨k, u, h⟩ := settles { s with dly := n * 25 } hphase
  refine ⟨k, u, h.run, h.dly, h.now, fun j hj => ?_⟩
  obtain ⟨v, hv, hheld, hnow⟩ := h.along j hj
  exact ⟨v, hv, hnow, hheld.rows, hheld.seq, hheld.log⟩

/-! ### The words of the micro-programs and their places -/

/-- Settles O8: the words, their number and their time are read off each list. -/
theorem microProgramsAreTheWrittenLists : Obligations.MicroProgramsAreTheWrittenLists :=
  ⟨rfl, rfl, rfl, startWords_length, byteWords_length, endWords_length, rfl, rfl, rfl⟩

/-- SETPHASE Idle stands last in END (R98, R106). -/
theorem setphaseIdle_occursOnlyAt : OccursOnlyAt 0xE0 [(.endAction, 70)] := occursOnlyAt_of_check (by decide) (by decide)

/-- SETPHASE Active stands last in START (R98, R102). -/
theorem setphaseActive_occursOnlyAt : OccursOnlyAt 0xE1 [(.start, 10)] := occursOnlyAt_of_check (by decide) (by decide)

/-- SETPHASE Draining stands first in END (R98, R106). -/
theorem setphaseDraining_occursOnlyAt : OccursOnlyAt 0xE2 [(.endAction, 0)] :=
  occursOnlyAt_of_check (by decide) (by decide)

/-- Settles O28: the words and their places are read off the micro-programs; the meaning is one update of `phase`. -/
theorem setphaseWritesThePhaseAlone : Obligations.SetphaseWritesThePhaseAlone :=
  ⟨rfl, rfl, rfl, setphaseIdle_occursOnlyAt, setphaseActive_occursOnlyAt, setphaseDraining_occursOnlyAt,
    fun _ _ _ => rfl⟩

/-- TGL {FLOW} stands once, behind the priming cycles of START (R102). -/
theorem toggleFlow_occursOnlyAt : OccursOnlyAt 0x08 [(.start, 8)] := occursOnlyAt_of_check (by decide) (by decide)

/-- SET {SYNC}, LOW stands in each of the eight slots of BYTE (R104, R105). -/
theorem lowerSync_occursOnlyAt : OccursOnlyAt 0x24 ((List.range 8).map fun slot => (.byte, 6 * slot + 2)) :=
  occursOnlyAt_of_check (by decide) (by decide)

/-- SET {SYNC}, HIGH stands once, behind the flush cycles of END (R106). -/
theorem raiseSync_occursOnlyAt : OccursOnlyAt 0x34 [(.endAction, 65)] := occursOnlyAt_of_check (by decide) (by decide)

/-- SET {FLOW}, HIGH stands once, in END (R106). -/
theorem raiseFlow_occursOnlyAt : OccursOnlyAt 0x38 [(.endAction, 66)] := occursOnlyAt_of_check (by decide) (by decide)

/-- The toggle of both clocks stands twice in each slot of BYTE (R104). -/
theorem toggleClocks_occursOnlyAt :
    OccursOnlyAt 0x03 ((List.range 8).flatMap fun slot => [(.byte, 6 * slot), (.byte, 6 * slot + 4)]) :=
  occursOnlyAt_of_check (by decide) (by decide)

/-- A word that has one place stands there. -/
theorem OccursOnlyAt.eq_of_single {u : MicroWord} {place : Program × Nat} {act : Program} {k : Nat}
    (h : OccursOnlyAt u [place]) (hact : act = .start ∨ act = .byte ∨ act = .endAction)
    (hword : (programWords act)[k]? = some u) : (act, k) = place :=
  List.mem_singleton.mp ((h act hact k).mp hword)

/-! ### The lines that a word of the micro-programs names -/

/-- The lines that a micro-operation word may change. -/
def wordLines (u : MicroWord) : LineSet :=
  match decodeMicro u with
  | .ok i => microLines i
  | .error _ => {}

theorem wordLines_of_decode {u : MicroWord} {i : Instr} (h : decodeMicro u = .ok i) : wordLines u = microLines i := by
  rw [wordLines, h]

/-- What is checked of the words of the three micro-programs holds of each. -/
theorem programWords_check {P : MicroWord → Prop} (h : ∀ u ∈ startWords ++ byteWords ++ endWords, P u) {act : Program}
    (hact : act = .start ∨ act = .byte ∨ act = .endAction) {k : Nat} {u : MicroWord}
    (hword : (programWords act)[k]? = some u) : P u := by
  have hmem : u ∈ programWords act := List.mem_of_getElem? hword
  apply h
  rcases hact with rfl | rfl | rfl <;> simp_all [programWords]

section Naming

variable {act : Program} (hact : act = .start ∨ act = .byte ∨ act = .endAction) {k : Nat} {u : MicroWord}
  (hword : (programWords act)[k]? = some u)

include hact hword

theorem eq_of_names_sync : (wordLines u).has .sync = true → u = 0x24 ∨ u = 0x34 :=
  programWords_check (P := fun u => (wordLines u).has .sync = true → u = 0x24 ∨ u = 0x34) (by decide) hact hword

theorem eq_of_names_flow : (wordLines u).has .flow = true → u = 0x08 ∨ u = 0x38 :=
  programWords_check (P := fun u => (wordLines u).has .flow = true → u = 0x08 ∨ u = 0x38) (by decide) hact hword

theorem eq_of_names_spiClk : (wordLines u).has .spiClk = true → u = 0x03 :=
  programWords_check (P := fun u => (wordLines u).has .spiClk = true → u = 0x03) (by decide) hact hword

end Naming

/-! ### The lines that each protocol moves (R102, R104, R105, R106) -/

/-- The step from `s` to `t` runs the word `u` at position `upc` of the action `act`, which was entered with the rows `entry`, and the
word names the line. -/
structure RunsWordNaming (l : OutLine) (s t : State) (act : Program) (upc : Nat) (u : MicroWord) (entry : Rows) :
    Prop where
  entered : EntryRow act entry
  seq : s.seq = .run act upc
  word : (programWords act)[upc]? = some u
  names : (wordLines u).has l = true
  before : s.rows = runRows ((programWords act).take upc) entry
  after : t.rows = runRows [u] s.rows

/-- In a run a line moves only by a word of an action that names it. -/
theorem exists_runsWordNaming {s t : State} {l : OutLine} (hs : SessionInv s) (h : step s = .next t)
    (hne : t.out.get l ≠ s.out.get l) : ∃ act upc u entry, RunsWordNaming l s t act upc u entry := by
  rcases micro_or_rows_kept h with ⟨i, turn, rows⟩ | ⟨-, -, -, out⟩
  · have hturn := turnOf s
    rw [turn] at hturn
    cases hturn with
    | micro due dly phase seq word decoded =>
      obtain ⟨-, -, entry, hentry, hrows⟩ := (sessionInv_run seq).mp hs
      have hout : t.out = (microRows i s.rows).out := congrArg Rows.out rows
      have hnamed : (microLines i).has l = true := by
        by_contra hn
        exact hne (by rw [hout]; exact microRows_get (Bool.eq_false_iff.mpr hn) s.rows)
      refine ⟨_, _, _, entry, hentry, seq, word, by rwa [wordLines_of_decode decoded], hrows, ?_⟩
      simp only [runRows, decoded, rows]
  · exact absurd (congrArg (Outputs.get · l) out) hne

/-- In BYTE the word that lowers `SYNC` finds it HIGH in the first slot alone (R105). -/
theorem slot_eq_zero_of_sync_high {slot : Nat} (hslot : slot < 8) {r : Rows}
    (h : (runRows ((programWords .byte).take (6 * slot + 2)) r).out.sync = .high) : slot = 0 := by
  have htake : ∀ slot < 8, (programWords .byte).take (6 * slot + 2) = repeatWords slotWords slot ++ [0x03, 0x41] := by
    decide
  have hslots : ∀ u ∈ repeatWords slotWords slot, ∃ i, decodeMicro u = .ok i := fun u hu =>
    programWords_decode (.inr (.inl rfl)) u
      (List.mem_of_mem_take (by rw [htake slot hslot]; exact List.mem_append_left _ hu))
  have hclocks : ∀ q : Rows, (runRows [0x03, 0x41] q).out.sync = q.out.sync := fun _ => rfl
  rw [htake slot hslot, runRows_append hslots, hclocks, repeatWords_slot_rows] at h
  by_contra hne
  simp [hne] at h

/-- At the end of the priming cycles of START `FLOW` is still HIGH (R102). -/
theorem flow_high_before_toggle {r : Rows} (h : EntryRow .start r) :
    (runRows ((programWords .start).take 8) r).out.flow = .high := by
  have htake : (programWords .start).take 8 = repeatWords cycleWords 2 := rfl
  obtain ⟨⟨-, -, -, hout⟩, -⟩ := h
  rw [htake, repeatWords_cycle_rows, hout]
  rfl

theorem RunsWordNaming.out {l : OutLine} {s t : State} {act : Program} {upc : Nat} {u : MicroWord} {entry : Rows}
    (h : RunsWordNaming l s t act upc u entry) : t.out = (runRows [u] s.rows).out := congrArg Rows.out h.after

section Moves

variable {s t : State} {act : Program} {upc : Nat} {u : MicroWord} {entry : Rows}

/-- `SYNC` falls only in the first slot of a burst (R105). -/
theorem RunsWordNaming.sync_falls (h : RunsWordNaming .sync s t act upc u entry) (hs : s.out.sync = .high)
    (ht : t.out.sync = .low) : s.seq = .run .byte 2 := by
  have hact := h.entered.program
  have hword := h.word
  have hafter := congrArg Outputs.sync h.out
  rcases eq_of_names_sync hact hword h.names with rfl | rfl
  · obtain ⟨slot, hslot, hplace⟩ := List.mem_map.mp ((lowerSync_occursOnlyAt act hact upc).mp hword)
    cases hplace
    have hhigh : s.rows.out.sync = .high := hs
    rw [h.before] at hhigh
    obtain rfl := slot_eq_zero_of_sync_high (List.mem_range.mp hslot) hhigh
    exact h.seq
  · cases ht.symm.trans hafter

/-- `SYNC` rises only at the end of END (R106). -/
theorem RunsWordNaming.sync_rises (h : RunsWordNaming .sync s t act upc u entry) (ht : t.out.sync = .high) :
    s.seq = .run .endAction 65 := by
  have hact := h.entered.program
  have hword := h.word
  have hafter := congrArg Outputs.sync h.out
  rcases eq_of_names_sync hact hword h.names with rfl | rfl
  · cases ht.symm.trans hafter
  · cases raiseSync_occursOnlyAt.eq_of_single hact hword
    exact h.seq

/-- `FLOW` falls only at the end of START (R102). -/
theorem RunsWordNaming.flow_falls (h : RunsWordNaming .flow s t act upc u entry) (ht : t.out.flow = .low) :
    s.seq = .run .start 8 := by
  have hact := h.entered.program
  have hword := h.word
  have hafter := congrArg Outputs.flow h.out
  rcases eq_of_names_flow hact hword h.names with rfl | rfl
  · cases toggleFlow_occursOnlyAt.eq_of_single hact hword
    exact h.seq
  · cases ht.symm.trans hafter

/-- `FLOW` rises only at the end of END: in START it is HIGH when it is toggled (R102, R106). -/
theorem RunsWordNaming.flow_rises (h : RunsWordNaming .flow s t act upc u entry) (hs : s.out.flow = .low) :
    s.seq = .run .endAction 66 := by
  have hact := h.entered.program
  have hword := h.word
  rcases eq_of_names_flow hact hword h.names with rfl | rfl
  · cases toggleFlow_occursOnlyAt.eq_of_single hact hword
    have hlow : s.rows.out.flow = .low := hs
    rw [h.before, flow_high_before_toggle h.entered] at hlow
    cases hlow
  · cases raiseFlow_occursOnlyAt.eq_of_single hact hword
    exact h.seq

/-- `SPI_CLK` moves only in BYTE (R104). -/
theorem RunsWordNaming.spiClk_moves (h : RunsWordNaming .spiClk s t act upc u entry) : s.seq = .run .byte upc := by
  have hact := h.entered.program
  have hword := h.word
  obtain rfl := eq_of_names_spiClk hact hword h.names
  obtain ⟨slot, -, hplace⟩ := List.mem_flatMap.mp ((toggleClocks_occursOnlyAt act hact upc).mp hword)
  rcases List.mem_pair.mp hplace with hplace | hplace
  all_goals
    cases hplace
    exact h.seq

end Moves

/-- Settles O44: a line that moves is named by the word just run, whose place gives the position; that `SYNC` is LOW after the first slot
and `FLOW` HIGH before START's toggle comes from the rows at the action's entry. -/
theorem eachLineMovesOnlyWhereItsProtocolMovesIt : Obligations.EachLineMovesOnlyWhereItsProtocolMovesIt := by
  intro s t hs h
  have moved : ∀ l, t.out.get l ≠ s.out.get l → ∃ act upc u entry, RunsWordNaming l s t act upc u entry :=
    fun _ hne => exists_runsWordNaming hs h hne
  refine ⟨fun hhigh hlow => ?_, fun hlow hhigh => ?_, fun hhigh hlow => ?_, fun hlow hhigh => ?_, fun hne => ?_,
    fun hne => ?_⟩
  · obtain ⟨_, _, _, _, hrun⟩ := moved .sync (by simp [Outputs.get, hhigh, hlow])
    exact hrun.sync_falls hhigh hlow
  · obtain ⟨_, _, _, _, hrun⟩ := moved .sync (by simp [Outputs.get, hhigh, hlow])
    exact hrun.sync_rises hhigh
  · obtain ⟨_, _, _, _, hrun⟩ := moved .flow (by simp [Outputs.get, hhigh, hlow])
    exact hrun.flow_falls hlow
  · obtain ⟨_, _, _, _, hrun⟩ := moved .flow (by simp [Outputs.get, hhigh, hlow])
    exact hrun.flow_rises hlow
  · obtain ⟨_, upc, _, _, hrun⟩ := moved .spiClk hne
    exact ⟨upc, hrun.spiClk_moves⟩
  · obtain ⟨act, upc, _, _, hrun⟩ := moved .sioClk hne
    exact ⟨act, upc, hrun.seq⟩

/-! ### A session from START to END (R103, R108) -/

theorem eq_of_bigRun_nil {r last : Rows} {ins : List (Level × Count)} (h : bigRun r ins = some ([], last)) : last = r := by
  cases ins with
  | nil =>
    cases h
    rfl
  | cons input ins =>
    obtain ⟨f, c⟩ := input
    simp only [bigRun] at h
    split at h
    · cases h
    · split at h <;> cases h

/-- A run of the loop with an action is a tick with that action and a run from the rows it gives. -/
theorem bigRun_cons_inv {r last : Rows} {ins : List (Level × Count)} {a : Action} {acts : List Action}
    (h : bigRun r ins = some (a :: acts, last)) :
    ∃ f c rest x, ins = (f, c) :: rest ∧ bigTick r f c 0 = some x ∧ x.action = a ∧
      bigRun x.rows rest = some (acts, last) := by
  cases ins with
  | nil => cases h
  | cons input rest =>
    obtain ⟨f, c⟩ := input
    simp only [bigRun] at h
    split at h
    · cases h
    · next x hx =>
      split at h
      · cases h
      · next hrun =>
        cases h
        exact ⟨f, c, rest, x, rfl, hx, rfl, hrun⟩

/-- A sample alone leaves row Active. -/
theorem activeRow_sampled {r : Rows} (h : ActiveRow r) (f : Level) : ActiveRow { r with cur := f } := h

/-- In row Active a tick that is not END is a burst or an idle iteration, and keeps row Active. -/
theorem activeRow_after_tick {r : Rows} {f : Level} {c : Count} {t : Nat} {x : TickResult} (hr : ActiveRow r)
    (h : bigTick r f c t = some x) (hne : x.action ≠ .endAction) :
    (x.action = .byte ∨ x.action = .nop) ∧ ActiveRow x.rows := by
  have hsel := dispatch_of_bigTick h
  obtain ⟨hrows, -⟩ := bigTick_words h
  rw [hrows]
  generalize x.action = a at hsel hne
  cases a with
  | nop => exact ⟨.inr rfl, activeRow_sampled hr f⟩
  | byte => exact ⟨.inl rfl, activeRow_after_byte hr f⟩
  | start =>
    obtain ⟨hactive, -⟩ := hr
    obtain ⟨hidle, -⟩ := dispatch_some hsel
    cases hactive.symm.trans hidle
  | endAction => exact absurd rfl hne

/-- In row Active END comes with the framing line HIGH and gives row Idle (R84, R106). -/
theorem idleRow_after_tick {r : Rows} {f : Level} {c : Count} {t : Nat} {x : TickResult} (hr : ActiveRow r)
    (h : bigTick r f c t = some x) (hend : x.action = .endAction) : IdleRow x.rows ∧ x.rows.cur = .high := by
  have hsel := dispatch_of_bigTick h
  rw [hend] at hsel
  obtain ⟨-, hedge⟩ := dispatch_some hsel
  obtain ⟨-, rfl⟩ := classify_eq_rising hedge
  obtain ⟨hrows, -⟩ := bigTick_words h
  rw [hend] at hrows
  rw [hrows]
  refine ⟨idleRow_after_end hr, ?_⟩
  rw [actionWords, endWords_rows]

/-- From row Active to the first END there are bursts and idle iterations, and END gives row Idle (R103, R108). -/
theorem bigRun_active_to_end {r last : Rows} {ins : List (Level × Count)} {acts : List Action} (hr : ActiveRow r)
    (hrun : bigRun r ins = some (acts ++ [.endAction], last)) (hend : .endAction ∉ acts) :
    (∀ a ∈ acts, a = .byte ∨ a = .nop) ∧ IdleRow last ∧ last.cur = .high := by
  induction acts generalizing r ins with
  | nil =>
    obtain ⟨f, c, rest, x, -, hx, hact, hrest⟩ := bigRun_cons_inv hrun
    obtain rfl := eq_of_bigRun_nil hrest
    exact ⟨by simp, idleRow_after_tick hr hx hact⟩
  | cons a acts ih =>
    obtain ⟨f, c, rest, x, -, hx, rfl, hrest⟩ := bigRun_cons_inv hrun
    obtain ⟨hne, hend⟩ := not_or.mp (List.mem_cons.not.mp hend)
    obtain ⟨hact, hr⟩ := activeRow_after_tick hr hx (Ne.symm hne)
    obtain ⟨hacts, hlast⟩ := ih hr hrest hend
    exact ⟨List.forall_mem_cons.mpr ⟨hact, hacts⟩, hlast⟩

/-- Settles O50: START leads from row Idle to row Active, which every iteration keeps until END leads back. -/
theorem sessionEndsInTheResetRows : Obligations.SessionEndsInTheResetRows := by
  intro r last c ins acts hr hrun hend
  obtain ⟨f, c, rest, x, hins, hx, hact, hrest⟩ := bigRun_cons_inv hrun
  cases hins
  obtain ⟨hrows, -⟩ := bigTick_words hx
  rw [hact] at hrows
  have hactive : ActiveRow x.rows := hrows ▸ activeRow_after_start (r := { r with cur := .low }) hr rfl
  exact bigRun_active_to_end hactive hrest hend

/-! ### The pins after an action (R107) -/

/-- The latch after a list of words, from what the words make of the rows. -/
theorem runOutputs_eq {ws : List MicroWord} {g : Rows → Rows} (h : ∀ r, runRows ws r = g r) (o : Outputs) :
    runOutputs ws o = (g { State.reset.rows with out := o }).out := by
  rw [← h, runRows_out]

theorem runOutputs_start (o : Outputs) : runOutputs (programWords .start) o = { o with flow := o.flow.not } :=
  runOutputs_eq startWords_rows o

theorem runOutputs_byte (o : Outputs) : runOutputs (programWords .byte) o = { o with sync := .low } :=
  runOutputs_eq byteWords_rows o

theorem runOutputs_endAction (o : Outputs) :
    runOutputs (programWords .endAction) o = { o with sync := .high, flow := .high } :=
  runOutputs_eq endWords_rows o

/-- Settles O51: END drives `SYNC` and `FLOW` HIGH and leaves the clocks, so a second END finds what it would make. -/
theorem endIsIdempotentOnThePins : Obligations.EndIsIdempotentOnThePins :=
  fun o => ⟨by simp only [runOutputs_endAction], runOutputs_endAction o, runOutputs_start o, runOutputs_byte o⟩

end Sys2Proof.Machine

/-! PROOFS. The block reset with the framing line LOW: it polls in Idle, and no falling edge is left to leave Idle with. -/

namespace Sys2Proof.Machine

/-- In Idle with `prev = LOW` every iteration is a NOP: no sample makes a falling edge of it (R61, R85). -/
theorem dispatch_idle_of_prev_low (cur : Level) (pend : Bool) :
    dispatch .idle (classify .low cur) pend = some .nop := by
  cases cur <;> rfl

theorem stuckInIdle_launch_low (p : Level) (script : List Stimulus) (overheads : List Nat) :
    StuckInIdle { State.launch .low p with env := script, overheads := overheads } :=
  ⟨rfl, rfl, rfl, rfl, rfl, rfl⟩

theorem StuckInIdle.phase_ne_reserved {s : State} (hs : StuckInIdle s) : s.phase ≠ .reserved := by
  obtain ⟨hphase, -⟩ := hs
  rw [hphase]
  decide

theorem StuckInIdle.environmentStep {s : State} (hs : StuckInIdle s) (e : Stimulus) (rest : List Stimulus) :
    StuckInIdle (environmentStep s e rest) := by
  rw [environmentStep_eq]
  exact hs

theorem StuckInIdle.tick {s : State} (hs : StuckInIdle s) : StuckInIdle (tick s) := by
  rw [tick_eq]
  exact hs

/-- A poll in Idle with `prev = LOW` selects nothing, which goes back to the poll point (R85). -/
theorem StuckInIdle.step_poll {s : State} (hs : StuckInIdle s) (hturn : nextTurn s = .poll) :
    ∃ t, step s = .next t ∧ StuckInIdle t := by
  obtain ⟨hphase, hprev, hexp, -, hout, hlog⟩ := hs
  have hnop : dispatch s.phase (classify s.prev s.framing) (pendOf s.pcnt s.exp) = some .nop := by
    rw [hphase, hprev, dispatch_idle_of_prev_low]
  exact ⟨_, step_poll_action hturn hnop, hphase, hprev, hexp, rfl, hout, hlog⟩

/-- A stuck block has a step, whatever the environment does, and is stuck again after it. -/
theorem StuckInIdle.step_next {s : State} (hs : StuckInIdle s) : ∃ t, step s = .next t ∧ StuckInIdle t := by
  have hphase := hs.phase_ne_reserved
  cases hdue : dueStimulus s with
  | some x => exact ⟨_, step_due hdue hphase, hs.environmentStep ..⟩
  | none =>
    by_cases hdly : s.dly = 0
    · have ⟨_, _, _, hseq, _⟩ := hs
      exact hs.step_poll (nextTurn_poll hdue hdly hseq)
    · exact ⟨_, step_wait (nextTurn_wait hdue hdly hphase), hs.tick⟩

/-- Settles O16: the launch is stuck in Idle, and a stuck block has a step, after which it is stuck again. -/
theorem resetWithFramingLowNeverLeavesIdle : Obligations.ResetWithFramingLowNeverLeavesIdle :=
  fun p script overheads k =>
    run_invariant (fun _ hs => hs.step_next) k _ (stuckInIdle_launch_low p script overheads)

end Sys2Proof.Machine
